-- ==== Sys2Proof/Word.lean ====
section
/-! DEFINITION. The two data widths of the block: one image word and one buffer byte (00_scope.md R5, R6). -/

namespace Sys2Proof

/-- One image word, and the width of `CRC`, `FILL`, `STATUS` and a command word (R5 `WORD`, `CRCW`). -/
abbrev Word := BitVec 16

/-- One byte of the CRC input buffer, and the operand of `CRCBYTE` (R5 `GROUP`, R27). -/
abbrev Byte := BitVec 8

end Sys2Proof
end

