-- ==== Sys2Proof/Config.lean ====
section
/-! DEFINITION. The open parameters of the block (00_scope.md R5): `AW` and `FILL_RESET`. -/

namespace Sys2Proof

/-- The open parameters of one block (R5, R192 L5). DESIGN CHOICE (entry 1): the step is a function of the
state alone, so the parameters stand in the state and no step changes them. A statement over all states then
holds for every `AW` and every `FILL_RESET`. Safe. -/
structure Params where
  /-- `AW`, the width of an address and of `START`, `LENGTH`, `CRCADDR`, `MAXADDR`. -/
  aw : Nat
  /-- `FILL_RESET`, the value of `FILL` after reset. -/
  fillReset : Word
  deriving DecidableEq, Repr

/-- `FILL_RESET` of the machine that `State.reset` describes: the spec leaves it open ("any 16-bit value", R33),
so nothing is known of it (entry 2). Safe. -/
opaque Config.fillReset : Word

/-- The spec's default address width (R5: "OPEN, default 32"). -/
def Config.defaultAW : Nat := 32

/-- The parameters of the machine that `State.reset` describes (entries 1 and 2). -/
def Config.params : Params := { aw := Config.defaultAW, fillReset := Config.fillReset }

end Sys2Proof
end

