-- ==== Sys2Proof/Syntax.lean ====
section
/-! DEFINITION. The host transactions and commands as terms (30_encoding.md R70, R75), and the register names of
the host interface (10_state.md R29). -/

namespace Sys2Proof

/-- The sixteen register indices of a transaction (R29). Indices 11 to 15 decode, name no register, and fail
when used (R76). -/
inductive Reg where
  | cmd | status | start | length | crcAddr | crc | fill | maxAddr | bufLen | bufPtr | bufData
  | undef11 | undef12 | undef13 | undef14 | undef15
  deriving DecidableEq, Repr

/-- The eight members of the instruction set (R70): two transactions and six commands. The written value is a
natural number, as R72 allows; `Instr.wf` bounds it by the register's data field. -/
inductive Instr where
  | rd (r : Reg)
  | wr (r : Reg) (v : Nat)
  | extract
  | checksum
  | patch
  | run
  | crcInit
  | crcByte (b : Byte)
  deriving DecidableEq, Repr

/-- The six commands a word written to `CMD` can encode (R73). -/
inductive Command where
  | extract
  | checksum
  | patch
  | run
  | crcInit
  | crcByte (b : Byte)
  deriving DecidableEq, Repr

/-- The instruction that issues a command (R75). -/
def Command.toInstr : Command → Instr
  | .extract => .extract
  | .checksum => .checksum
  | .patch => .patch
  | .run => .run
  | .crcInit => .crcInit
  | .crcByte b => .crcByte b

/-- The six cause bits of `STATUS` (60_exceptions.md R160 to R165). -/
inductive Cause where
  | startOdd | lenOdd | range | crcAddrOdd | resultRange | illegal
  deriving DecidableEq, Repr

end Sys2Proof
end

