-- ==== Sys2Proof/Machine/RegMap.lean ====
section
/-! DEFINITION. The register map of the host interface: index, width and access of every register (10_state.md R29). -/

namespace Sys2Proof

/-- The register's number in a transaction header (R29, first column). -/
def Reg.index : Reg → Nat
  | .cmd => 0
  | .status => 1
  | .start => 2
  | .length => 3
  | .crcAddr => 4
  | .crc => 5
  | .fill => 6
  | .maxAddr => 7
  | .bufLen => 8
  | .bufPtr => 9
  | .bufData => 10
  | .undef11 => 11
  | .undef12 => 12
  | .undef13 => 13
  | .undef14 => 14
  | .undef15 => 15

/-- The register a header's index field names: every value of the field names one of the sixteen. -/
def Reg.ofIndex : Nat → Reg
  | 0 => .cmd
  | 1 => .status
  | 2 => .start
  | 3 => .length
  | 4 => .crcAddr
  | 5 => .crc
  | 6 => .fill
  | 7 => .maxAddr
  | 8 => .bufLen
  | 9 => .bufPtr
  | 10 => .bufData
  | 11 => .undef11
  | 12 => .undef12
  | 13 => .undef13
  | 14 => .undef14
  | _ => .undef15

/-- `width(r)`, the width column of R29; an undefined index has none. -/
def Reg.width (aw : Nat) : Reg → Nat
  | .cmd => 16
  | .status => 16
  | .start => aw
  | .length => aw
  | .crcAddr => aw
  | .crc => 16
  | .fill => 16
  | .maxAddr => aw
  | .bufLen => aw + 1
  | .bufPtr => aw + 1
  | .bufData => 8
  | .undef11 => 0
  | .undef12 => 0
  | .undef13 => 0
  | .undef14 => 0
  | .undef15 => 0

/-- Whether the host may write the register (R29, access column). -/
def Reg.writable : Reg → Bool
  | .cmd => true
  | .status => false
  | .start => true
  | .length => true
  | .crcAddr => true
  | .crc => false
  | .fill => true
  | .maxAddr => false
  | .bufLen => false
  | .bufPtr => true
  | .bufData => false
  | .undef11 => false
  | .undef12 => false
  | .undef13 => false
  | .undef14 => false
  | .undef15 => false

/-- Whether the host may read the register (R29, access column). -/
def Reg.readable : Reg → Bool
  | .cmd => false
  | .status => true
  | .start => true
  | .length => true
  | .crcAddr => true
  | .crc => true
  | .fill => true
  | .maxAddr => true
  | .bufLen => true
  | .bufPtr => true
  | .bufData => true
  | .undef11 => false
  | .undef12 => false
  | .undef13 => false
  | .undef14 => false
  | .undef15 => false

/-- The bits of data that follow the header of a write: `width(r)` for a register the host may write, none
otherwise (30_encoding.md R71, R78: "A write whose index is undefined or read-only has no data width"). -/
def Reg.dataWidth (aw : Nat) (r : Reg) : Nat := if r.writable then r.width aw else 0

end Sys2Proof
end

