-- ==== Sys2Proof/Decode.lean ====
section
/-! DEFINITION. The decoder of host transactions and command words, and the encoder (30_encoding.md R71 to R78).
A transaction is a bit string, header then data, each most significant bit first. -/

namespace Sys2Proof

/-! ### Bit strings -/

/-- The number a bit string spells, most significant bit first (R71). -/
def natOfBits (bs : List Bool) : Nat := bs.foldl (fun n b => 2 * n + b.toNat) 0

/-- The low `n` bits of `v` as a bit string, most significant bit first (R71). -/
def bitsOfNat : (n v : Nat) → List Bool
  | 0, _ => []
  | n + 1, v => v.testBit n :: bitsOfNat n v

/-! ### Command words (format C) -/

/-- A command whose `imm8` field must be zero (R73). -/
def plainCommand (imm8 : Byte) (k : Command) : Option Command := if imm8 = 0 then some k else none

/-- The command a word encodes, or none: the word is illegal (R73, R76). Total on all 65536 words. -/
def decodeCommand (c : Word) : Option Command :=
  if c.extractLsb 11 8 ≠ 0 then none
  else
    match (c.extractLsb 15 12).toNat with
    | 1 => plainCommand (c.extractLsb 7 0) .extract
    | 2 => plainCommand (c.extractLsb 7 0) .checksum
    | 3 => plainCommand (c.extractLsb 7 0) .patch
    | 4 => plainCommand (c.extractLsb 7 0) .run
    | 5 => plainCommand (c.extractLsb 7 0) .crcInit
    | 6 => some (.crcByte (c.extractLsb 7 0))
    | _ => none

/-- The command a value written to `CMD` encodes, or none: a value of more than 16 bits is no command word
(R74, 40_host_access.md R90). -/
def commandOf (v : Nat) : Option Command := if v < 2 ^ 16 then decodeCommand (BitVec.ofNat 16 v) else none

/-! ### Transactions (format T) -/

/-- What a header says (R72). -/
inductive Header where
  | rd (r : Reg)
  | wr (r : Reg)
  /-- One of bits 6:4 is set: no transaction (R76). `isWrite` is bit 7, all that the error state looks at. -/
  | malformed (isWrite : Bool)
  deriving DecidableEq, Repr

/-- Decoding a header (R72): `W` in bit 7, bits 6:4 zero, the index in bits 3:0. -/
def decodeHeader (h : Byte) : Header :=
  if h.extractLsb 6 4 ≠ 0 then .malformed h.msb
  else if h.msb then .wr (Reg.ofIndex (h.extractLsb 3 0).toNat)
  else .rd (Reg.ofIndex (h.extractLsb 3 0).toNat)

/-- What the bits the host has sent so far say. -/
inductive Decoded where
  | instr (i : Instr)
  /-- An illegal header: the transaction fails, or is refused, on its header alone (R72, R76). -/
  | malformed (isWrite : Bool)
  /-- The transaction is not complete: the host has still to send bits of it. -/
  | incomplete
  deriving DecidableEq, Repr

/-- The instruction that a write is: a legal command word written to `CMD` issues its command (R73, R75);
every other write, one of a value too wide among them, is itself. -/
def writeInstr (r : Reg) (v : Nat) : Instr :=
  match r with
  | .cmd =>
    match commandOf v with
    | some k => k.toInstr
    | none => .wr .cmd v
  | _ => .wr r v

/-- The transaction a bit string begins with (R71, R72, R78), with data fields at address width `aw`. -/
def decode (aw : Nat) (bits : List Bool) : Decoded :=
  if bits.length < 8 then .incomplete
  else
    match decodeHeader (BitVec.ofNat 8 (natOfBits (bits.take 8))) with
    | .malformed w => .malformed w
    | .rd r => .instr (.rd r)
    | .wr r =>
      if bits.length < 8 + r.dataWidth aw then .incomplete
      else .instr (writeInstr r (natOfBits ((bits.drop 8).take (r.dataWidth aw))))

/-! ### The encoder -/

/-- The word of a command (R75). -/
def Command.word : Command → Word
  | .extract => 0x1000
  | .checksum => 0x2000
  | .patch => 0x3000
  | .run => 0x4000
  | .crcInit => 0x5000
  | .crcByte b => 0x60#8 ++ b

/-- The header of a read and of a write (R75: `0000rrrr`, `1000rrrr`). -/
def headerBits (isWrite : Bool) (r : Reg) : List Bool :=
  isWrite :: false :: false :: false :: bitsOfNat 4 r.index

/-- A write: header, then the value in the register's data field (R71). -/
def writeBits (aw : Nat) (r : Reg) (v : Nat) : List Bool :=
  headerBits true r ++ bitsOfNat (r.dataWidth aw) v

/-- A command is issued as `WR CMD, c` (R75). -/
def commandBits (aw : Nat) (k : Command) : List Bool := writeBits aw .cmd k.word.toNat

/-- The whole bit string of an instruction (R71, R75). -/
def encode (aw : Nat) : Instr → List Bool
  | .rd r => headerBits false r
  | .wr r v => writeBits aw r v
  | .extract => commandBits aw .extract
  | .checksum => commandBits aw .checksum
  | .patch => commandBits aw .patch
  | .run => commandBits aw .run
  | .crcInit => commandBits aw .crcInit
  | .crcByte b => commandBits aw (.crcByte b)

/-- The length of a transaction in bits (R78): 8 for a read, 8 and the data width for a write, 24 for a command. -/
def Instr.bitLength (aw : Nat) : Instr → Nat
  | .rd _ => 8
  | .wr r _ => 8 + r.dataWidth aw
  | .extract => 24
  | .checksum => 24
  | .patch => 24
  | .run => 24
  | .crcInit => 24
  | .crcByte _ => 24

/-! ### The opcode table's words -/

/-- The bit string of a word of spec/opcode_table.json: an 8-bit row is a header, followed on a write by a data
field of zeros; a 16-bit row is a command word, issued as `WR CMD, c` (R75). -/
def tableBits (aw nbits w : Nat) : List Bool :=
  if nbits ≤ 8 then
    match decodeHeader (BitVec.ofNat 8 w) with
    | .wr r => bitsOfNat 8 w ++ List.replicate (r.dataWidth aw) false
    | _ => bitsOfNat 8 w
  else headerBits true .cmd ++ bitsOfNat 16 w

/-- The instruction the decoder reads from a word of the opcode table (8-bit rows: format T; 16-bit rows:
format C). The data bits of an 8-bit write row are zeros, so its value is 0 at every address width. -/
def decodeTableWord (nbits w : Nat) : Option Instr :=
  if nbits ≤ 8 then
    match decode Config.defaultAW (tableBits Config.defaultAW nbits w) with
    | .instr i => some i
    | _ => none
  else (decodeCommand (BitVec.ofNat 16 w)).map Command.toInstr

end Sys2Proof
end

