-- ==== Sys2Proof/Machine/State.lean ====
section
/-! DEFINITION. The state of the machine (10_state.md R20), the host's side of it, its reset value (R33) and the
reasons a step can stop. -/

namespace Sys2Proof.Machine

/-- The memory image: the present slots with their words, in strictly rising order of address; a slot that is
not listed is absent (20_memory.md R50, R51; entry 4). -/
abbrev Memory := List (Nat × Word)

/-- What the host does next: it sends a bit of a transaction (30_encoding.md R71), or applies reset
(70_reset_and_hazards.md R180). The model's own (entry 5). -/
inductive HostEvent where
  | bit (b : Bool)
  | reset
  deriving DecidableEq, Repr

/-- The outcome of the last transaction (00_scope.md R9), with what a read returned (40_host_access.md R91).
The model's own (entry 9). -/
inductive Reply where
  /-- No transaction since reset. -/
  | noReply
  /-- The transaction completed and returned nothing: a write or a command. -/
  | completed
  /-- A read completed and returned this value. -/
  | value (v : Nat)
  /-- The transaction failed (R166); a failing read returns nothing. -/
  | failed
  /-- The write was refused (R168). -/
  | refused
  deriving DecidableEq, Repr

/-- Everything the spec gives the machine (R20), after the block's parameters (entry 1); the last two fields are
the host's side. Registers whose width is the parameter `AW` are natural numbers; `State.Inv` bounds them
(entry 13). -/
structure State where
  /-- The parameters `AW` and `FILL_RESET`; no step changes them. -/
  par : Params
  /-- `IMG.mem` and `IMG.present`. -/
  mem : Memory
  /-- `IMG.maxAddress`, register `MAXADDR`. -/
  maxAddress : Nat
  /-- `IMG.fill`, register `FILL`. -/
  fill : Word
  /-- Register `START`. -/
  start : Nat
  /-- Register `LENGTH`. -/
  length : Nat
  /-- Register `CRCADDR`. -/
  crcAddr : Nat
  /-- `BUF`, the CRC input buffer. -/
  buf : List Byte
  /-- Register `BUFPTR`. -/
  bufPtr : Nat
  /-- Register `CRC`. -/
  crc : Word
  /-- Register `STATUS`. -/
  status : Word
  /-- What the host has still to do, in order. -/
  events : List HostEvent
  /-- The outcome of the last transaction. -/
  reply : Reply
  deriving DecidableEq, Repr

/-- Why the machine stops. -/
inductive Fault where
  /-- Raised by `EXTRACT`, `PATCH` and `RUN` for an access to an image address at or above `2^AW`, which does not
  exist (20_memory.md R50). No state that meets `State.Inv` raises it (R62). Safe (entry 12). -/
  | addressOutsideSpace
  deriving DecidableEq, Repr

/-- Why a step has no meaning. -/
inductive Refusal where
  /-- Raised by an arm of `exec` whose instruction has no meaning yet; no arm is left. Safe. -/
  | notModelled (mnemonic : String)
  /-- Raised by the step when reset comes before the end of a transaction whose bits have begun to arrive:
  93_implementation_defined.md U11, "`refuse`: the model applies reset between transactions only". Safe (entry 7). -/
  | resetInsideTransaction
  deriving DecidableEq, Repr

/-- The state right after reset (R33), with no image loaded and no transaction pending. `AW` is the spec's
default (entry 1), `FILL` the open `FILL_RESET` (entry 2); the empty image and `MAXADDR` 0 are DESIGN CHOICE
(entry 3), since reset does not touch the image. -/
def State.reset : State where
  par := Config.params
  mem := []
  maxAddress := 0
  fill := Config.fillReset
  start := 0
  length := 0
  crcAddr := 0
  buf := []
  bufPtr := 0
  crc := 0xFFFF
  status := 0x0000
  events := []
  reply := .noReply

/-! ### One update per field that the machine writes -/

namespace State

variable (s : State)

def withMem (m : Memory) : State := { s with mem := m }
def withFill (f : Word) : State := { s with fill := f }
def withStart (a : Nat) : State := { s with start := a }
def withLength (n : Nat) : State := { s with length := n }
def withCrcAddr (a : Nat) : State := { s with crcAddr := a }
def withBuf (b : List Byte) : State := { s with buf := b }
def withBufPtr (p : Nat) : State := { s with bufPtr := p }
def withCrc (c : Word) : State := { s with crc := c }
def withStatus (w : Word) : State := { s with status := w }
def withEvents (es : List HostEvent) : State := { s with events := es }
def withReply (r : Reply) : State := { s with reply := r }

end State

end Sys2Proof.Machine
end

