-- ==== Sys2Proof/Machine/Flags.lean ====
section
/-! DEFINITION. The fields of `STATUS` and the two ways they are written: completing and failing (10_state.md R23,
60_exceptions.md R166). -/

namespace Sys2Proof

/-- The bit of `STATUS` that a cause sets (R160 to R165). -/
def Cause.bit : Cause → Nat
  | .startOdd => 8
  | .lenOdd => 9
  | .range => 10
  | .crcAddrOdd => 11
  | .resultRange => 12
  | .illegal => 13

/-- The cause as a word with its one bit set. -/
def Cause.mask (e : Cause) : Word := 1#16 <<< e.bit

namespace Machine

/-- A set of causes as the bits it sets in `STATUS`. -/
def causeMask (V : List Cause) : Word := V.foldr (fun e m => e.mask ||| m) 0

namespace Status

/-- `STATUS.DONE`, bit 0. -/
def done (w : Word) : Bool := w.getLsbD 0

/-- `STATUS.ERR`, bit 1. -/
def err (w : Word) : Bool := w.getLsbD 1

/-- `STATUS.CAUSE`, bits 15:8. -/
def cause (w : Word) : Byte := w.extractLsb 15 8

/-- `STATUS.DONE <- 1` (R23). -/
def setDone (w : Word) : Word := w ||| 0x0001

/-- `CAUSE <- CAUSE or V; ERR <- 1; DONE <- 0` (R166). -/
def raise (V : List Cause) (w : Word) : Word := ((w ||| causeMask V) ||| 0x0002) &&& ~~~0x0001

end Status

/-- Whether the block is in the error state (R168). -/
def State.err (s : State) : Bool := Status.err s.status

end Machine

end Sys2Proof
end

