-- ==== Sys2Proof/Machine/Ops.lean ====
section
/-! DEFINITION. The operations every instruction shares: the image primitives (20_memory.md R52, R53), the three
outcomes of a transaction (00_scope.md R9, 60_exceptions.md R166, R168), and reset, the only way out of the error
state (60_exceptions.md R169, 70_reset_and_hazards.md R180). -/

namespace Sys2Proof.Machine

/-- A step's outcome on this machine. -/
abbrev Result := Host.Outcome State Fault Refusal

/-! ### Bit fields -/

/-- Bits 15:8 of a word. -/
def highByte (w : Word) : Byte := w.extractLsb 15 8

/-- Bits 7:0 of a word. -/
def lowByte (w : Word) : Byte := w.extractLsb 7 0

/-! ### The image as a partial map -/

namespace Memory

/-- The word at an address, or none: the address is absent (R51). -/
def lookup : Memory → Nat → Option Word
  | [], _ => none
  | (b, w) :: rest, a => if a = b then some w else lookup rest a

/-- The image with the word stored at an address, which is present from then on (R53). -/
def store : Memory → Nat → Word → Memory
  | [], a, v => [(a, v)]
  | (b, w) :: rest, a, v =>
    if a < b then (a, v) :: (b, w) :: rest
    else if a = b then (a, v) :: rest
    else (b, w) :: store rest a v

/-- Every address is at least `lo`, and they rise strictly. -/
def risingFrom : Nat → Memory → Bool
  | _, [] => true
  | lo, (b, _) :: rest => decide (lo ≤ b) && risingFrom (b + 1) rest

/-- The canonical form: addresses strictly rising, all inside the address space of `2^aw` slots (R50). -/
def wf (aw : Nat) (m : Memory) : Bool := risingFrom 0 m && m.all (fun p => decide (p.1 < 2 ^ aw))

/-- The canonical image that holds the listed words; a later entry for an address wins. -/
def ofWords : List (Nat × Word) → Memory := List.foldl (fun m p => store m p.1 p.2) []

end Memory

namespace State

variable (s : State)

/-- `IMG.present(a)` (R51). -/
def present (a : Nat) : Bool := (Memory.lookup s.mem a).isSome

/-- `ReadFb(a, f)`: the word at `a`, or `f` where `a` is absent (R52). -/
def readFb (a : Nat) (f : Word) : Word := (Memory.lookup s.mem a).getD f

/-- `ImgRead(a)`: the word at `a`, or the fill in force where `a` is absent (R52). -/
def imgRead (a : Nat) : Word := s.readFb a s.fill

/-- `ImgWrite(a, v)` (R53). -/
def imgWrite (a : Nat) (v : Word) : State := s.withMem (Memory.store s.mem a v)

/-- The slots `base .. base + n - 1` all exist (R50); otherwise the access faults (entry 12). What goes on is a
function, here and below, so that running the model does not compute what a check turns away. -/
def withinSpace (base n : Nat) (k : Unit → Result) : Result :=
  if base + n ≤ 2 ^ s.par.aw then k () else .fault .addressOutsideSpace

/-! ### The outcomes of a transaction -/

/-- The transaction fails with the causes `V` (R166): only `STATUS` changes. -/
def fail (V : List Cause) : State := (s.withStatus (Status.raise V s.status)).withReply .failed

/-- The transaction is refused (R168): nothing of the block changes. -/
def refuse : State := s.withReply .refused

/-- A register write completes: `DONE` is not touched (R92). -/
def complete : State := s.withReply .completed

/-- A command completes: `STATUS.DONE <- 1` (R23). -/
def completeCommand : State := (s.withStatus (Status.setDone s.status)).withReply .completed

/-- Before anything else a write looks at `STATUS.ERR`; if it is 1 the write is refused (R92, R168). -/
def asWrite (k : Unit → Result) : Result := if s.err then .next s.refuse else k ()

/-- A command with its checks: it fails with all the violated constraints (R166, R167), or goes on. -/
def checked (V : List Cause) (k : Unit → Result) : Result := if V.isEmpty then k () else .next (s.fail V)

/-- A malformed header: refused in the error state if bit 7 says write, otherwise `E_ILLEGAL` (R72). -/
def malformedHeader (isWrite : Bool) : State :=
  if isWrite && s.err then s.refuse else s.fail [.illegal]

/-! ### Events from outside the block -/

/-- The reset event (R33, R180): every element of the block at its reset value, `FILL` at `FILL_RESET`; the image
and `MAXADDR` keep their values. It is the only return from the error state (R169). -/
def applyReset : State where
  par := s.par
  mem := s.mem
  maxAddress := s.maxAddress
  fill := s.par.fillReset
  start := 0
  length := 0
  crcAddr := 0
  buf := []
  bufPtr := 0
  crc := 0xFFFF
  status := 0x0000
  events := s.events
  reply := .noReply

/-- The environment loads an image before a run (R28, R181): the words, presence and `MAXADDR` it gives. A launch
operation, not a move of the step (entry 15). -/
def loadImage (words : List (Nat × Word)) (maxAddress : Nat) : State :=
  { s with mem := Memory.ofWords words, maxAddress := maxAddress }

/-- The host has the bits of a transaction to send, after what it already has (R71, R191). -/
def sendBits (bits : List Bool) : State := s.withEvents (s.events ++ bits.map .bit)

/-- The host's next `n` bits have been taken. -/
def consume (n : Nat) : State := s.withEvents (s.events.drop n)

end State

end Sys2Proof.Machine
end

