-- ==== Sys2Proof/Machine/Operands.lean ====
section
/-! DEFINITION. The operand forms: registers as a read returns them and as a write stores them (10_state.md R29,
40_host_access.md R90, R91), and the value a write-back stores (43_patch.md R140). -/

namespace Sys2Proof.Machine.State

variable (s : State)

/-- `BUFDATA`: the byte of `BUF` at `BUFPTR`, `0x00` beyond its end (R27, R91). -/
def bufData : Byte := s.buf.getD s.bufPtr 0x00

/-- What a read of a register returns; none where the read is illegal (R91). No read has a side effect. -/
def regRead : Reg → Option Nat
  | .cmd => none
  | .status => some s.status.toNat
  | .start => some s.start
  | .length => some s.length
  | .crcAddr => some s.crcAddr
  | .crc => some s.crc.toNat
  | .fill => some s.fill.toNat
  | .maxAddr => some s.maxAddress
  | .bufLen => some s.buf.length
  | .bufPtr => some s.bufPtr
  | .bufData => some s.bufData.toNat
  | .undef11 => none
  | .undef12 => none
  | .undef13 => none
  | .undef14 => none
  | .undef15 => none

/-- The state with a value stored in a register other than `CMD`; none where the write is illegal or the value
does not fit `width(r)` bits (R90). -/
def regWrite (r : Reg) (v : Nat) : Option State :=
  if 2 ^ r.width s.par.aw ≤ v then none
  else
    match r with
    | .start => some (s.withStart v)
    | .length => some (s.withLength v)
    | .crcAddr => some (s.withCrcAddr v)
    | .fill => some (s.withFill (BitVec.ofNat 16 v))
    | .bufPtr => some (s.withBufPtr v)
    | .cmd => none
    | .status => none
    | .crc => none
    | .maxAddr => none
    | .bufLen => none
    | .bufData => none
    | .undef11 => none
    | .undef12 => none
    | .undef13 => none
    | .undef14 => none
    | .undef15 => none

/-- `R = zext_24(CRC)`, the value a write-back stores (R140). -/
def patchValue : Nat := (s.crc.setWidth 24).toNat

end Sys2Proof.Machine.State
end

