-- ==== Sys2Proof/Machine/Crc.lean ====
section
/-! DEFINITION. The CRC-16 with generator `x^16 + x^15 + x^2 + 1`, and the commands `CRCINIT`, `CRCBYTE`,
`CHECKSUM` (42_crc.md R120 to R132). -/

namespace Sys2Proof.Machine

/-- `POLY16`: the generator without its leading term (R120). -/
def crcPoly : Word := 0x8005

/-- `INIT`: the initial register (R120). -/
def crcStart : Word := 0xFFFF

/-- `CrcBit(c, d)`: the feedback is bit 15 xor the message bit; shift left; if it is 1, add the generator (R121). -/
def crcBit (c : Word) (d : Bool) : Word :=
  if c.getLsbD 15 ^^ d then (c <<< 1) ^^^ crcPoly else c <<< 1

/-- `CrcByte(c, b)`: `CrcBit` over the bits of `b` from bit 7 down to bit 0 (R122). -/
def crcByte (c : Word) (b : Byte) : Word :=
  let c7 := crcBit c (b.getLsbD 7)
  let c6 := crcBit c7 (b.getLsbD 6)
  let c5 := crcBit c6 (b.getLsbD 5)
  let c4 := crcBit c5 (b.getLsbD 4)
  let c3 := crcBit c4 (b.getLsbD 3)
  let c2 := crcBit c3 (b.getLsbD 2)
  let c1 := crcBit c2 (b.getLsbD 1)
  crcBit c1 (b.getLsbD 0)

/-- `Crc16(B)`: `CrcByte` over the bytes in increasing index from `0xFFFF`, no final xor (R124). -/
def crc16 (bytes : List Byte) : Word := bytes.foldl crcByte crcStart

/-- `CRCINIT` (R128). -/
def execCrcInit (s : State) : Result := s.asWrite fun _ => .next (s.withCrc crcStart).completeCommand

/-- `CRCBYTE b` (R129). -/
def execCrcByte (b : Byte) (s : State) : Result :=
  s.asWrite fun _ => .next (s.withCrc (crcByte s.crc b)).completeCommand

/-- `CHECKSUM` (R130). -/
def execChecksum (s : State) : Result := s.asWrite fun _ => .next (s.withCrc (crc16 s.buf)).completeCommand

end Sys2Proof.Machine
end

