-- ==== Sys2Proof/Machine/Reorder.lean ====
section
/-! DEFINITION. The reorder engine: `CheckWindow`, `Extract` and the command `EXTRACT` (41_reorder.md R100 to R110). -/

namespace Sys2Proof.Machine

/-- `FILL_HI`, the fill in force while the Higher byte is read (00_scope.md R5, R102). -/
def fillHi : Word := 0xFFFF

/-- `FILL_LO`, the fill in force while the Lower and the Upper byte are read (R5, R102; decisions D7, D27). -/
def fillLo : Word := 0x00FF

/-- A violated constraint as a set of causes. -/
def violated (p : Bool) (e : Cause) : List Cause := if p then [e] else []

namespace State

variable (s : State)

/-- `CheckWindow(base, len)`: the violated constraints of a window, the sum on natural numbers (R101, R8). -/
def checkWindow (base len : Nat) : List Cause :=
  violated (base % 2 == 1) .startOdd ++ violated (len % 2 == 1) .lenOdd
    ++ violated (decide (s.maxAddress < base + len)) .range

/-- Reading one pair whose even-offset word is at `a` (R102): three reads in the order Higher, Lower, Upper under
the fills `0xFFFF`, `0x00FF`, `0x00FF`; the group in the order Upper, Higher, Lower (R103). -/
def extractPair (a : Nat) : State × List Byte :=
  let hi := s.withFill fillHi
  let higher := highByte (hi.imgRead a)
  let lo := hi.withFill fillLo
  let lower := lowByte (lo.imgRead a)
  let upper := lowByte (lo.imgRead (a + 1))
  (lo, [upper, higher, lower])

/-- The groups of `n` pairs from address `a` on, in increasing order (R104). -/
def extractPairs : (n a : Nat) → State → State × List Byte
  | 0, _, s => (s, [])
  | n + 1, a, s =>
    let (s₁, group) := s.extractPair a
    let (s₂, rest) := extractPairs n (a + 2) s₁
    (s₂, group ++ rest)

/-- `Extract(base, len)`: the bytes, and the state with the fill as the loop leaves it (R104, R106). -/
def extract (base len : Nat) : State × List Byte := extractPairs (len / 2) base s

end State

/-- `EXTRACT` (R100): fill `BUF` with the reordered bytes of the window `START .. START + LENGTH - 1`. -/
def execExtract (s : State) : Result :=
  s.asWrite fun _ => s.checked (s.checkWindow s.start s.length) fun _ => s.withinSpace s.start s.length fun _ =>
    let (s₁, bytes) := s.extract s.start s.length
    .next (s₁.withBuf bytes).completeCommand

end Sys2Proof.Machine
end

