-- ==== Sys2Proof/Machine/Patch.lean ====
section
/-! DEFINITION. The write-back stage: `CheckPatch`, `Patch` and the command `PATCH` (43_patch.md R140 to R146). -/

namespace Sys2Proof.Machine

/-- `GUARD`: the historical bound of the value to store (R142). -/
def patchGuard : Nat := 2 ^ 20

/-- The guard alone (R142, R164). -/
def checkResult (R : Nat) : List Cause := violated (decide (patchGuard ≤ R)) .resultRange

/-- The address constraint alone (R163). -/
def checkCrcAddr (A : Nat) : List Cause := violated (A % 2 == 1) .crcAddrOdd

/-- `CheckPatch(A, R)`: the violated constraints of the write-back (R143). -/
def checkPatch (A R : Nat) : List Cause := checkCrcAddr A ++ checkResult R

/-- `Patch(A, R)`: two word writes, the lower address first (R141). -/
def State.patch (s : State) (A R : Nat) : State :=
  (s.imgWrite A (BitVec.ofNat 16 (R &&& 0xFFFF))).imgWrite (A + 1) (BitVec.ofNat 16 ((R >>> 16) &&& 0xFF))

/-- `PATCH` (R140): store `CRC` into the slots at `CRCADDR` and `CRCADDR + 1`. -/
def execPatch (s : State) : Result :=
  s.asWrite fun _ => s.checked (checkPatch s.crcAddr s.patchValue) fun _ => s.withinSpace s.crcAddr 2 fun _ =>
    .next (s.patch s.crcAddr s.patchValue).completeCommand

end Sys2Proof.Machine
end

