-- ==== Sys2Proof/Machine/Sequencer.lean ====
section
/-! DEFINITION. The sequencer: `CheckRun` and the command `RUN` (44_run.md R150 to R155). -/

namespace Sys2Proof.Machine

/-- `CheckRun(start, len, crcaddr)`: the window check and the address part of the patch check (R152). -/
def State.checkRun (s : State) (start len crcAddr : Nat) : List Cause :=
  s.checkWindow start len ++ checkCrcAddr crcAddr

/-- `RUN` (R150): validate, extract, checksum, write back, in that order; every read precedes both writes (R154).
The result guard between checksum and write-back never fails (R142); should it fail, the failed command leaves
everything but `STATUS` as it was (R166, entry 11). -/
def execRun (s : State) : Result :=
  s.asWrite fun _ => s.checked (s.checkRun s.start s.length s.crcAddr) fun _ =>
    s.withinSpace s.start s.length fun _ => s.withinSpace s.crcAddr 2 fun _ =>
      let (s₁, bytes) := s.extract s.start s.length
      let s₂ := (s₁.withBuf bytes).withCrc (crc16 bytes)
      s.checked (checkResult s₂.patchValue) fun _ =>
        .next (s₂.patch s₂.crcAddr s₂.patchValue).completeCommand

end Sys2Proof.Machine
end

