-- ==== Sys2Proof/Machine/HostAccess.lean ====
section
/-! DEFINITION. The two host transactions `RD` and `WR` (40_host_access.md R90 to R92). -/

namespace Sys2Proof.Machine

/-- `RD r` (R91): the register's value goes to the host; an illegal read fails and returns nothing. A read is
never refused (R92). -/
def execRd (r : Reg) (s : State) : Result :=
  match s.regRead r with
  | some v => .next (s.withReply (.value v))
  | none => .next (s.fail [.illegal])

/-- The command that a word written to `CMD` encodes, executed to its end (R22, R73). -/
def execCommand (k : Command) (s : State) : Result :=
  match k with
  | .extract => execExtract s
  | .checksum => execChecksum s
  | .patch => execPatch s
  | .run => execRun s
  | .crcInit => execCrcInit s
  | .crcByte b => execCrcByte b s

/-- A write to `CMD` (R90): a value of 16 bits is decoded as a command word and executed; a wider one is illegal. -/
def writeCmd (v : Nat) (s : State) : Result :=
  match commandOf v with
  | some k => execCommand k s
  | none => .next (s.fail [.illegal])

/-- A write to any register but `CMD` (R90). -/
def writeReg (r : Reg) (v : Nat) (s : State) : Result :=
  match s.regWrite r v with
  | some s' => .next s'.complete
  | none => .next (s.fail [.illegal])

/-- `WR r, v` (R90). -/
def execWr (r : Reg) (v : Nat) (s : State) : Result :=
  s.asWrite fun _ =>
    match r with
    | .cmd => writeCmd v s
    | _ => writeReg r v s

end Sys2Proof.Machine
end

