-- ==== Sys2Proof/Machine/Dispatch.lean ====
section
/-! DEFINITION. One arm per constructor of `Instr`: the instruction's meaning. -/

namespace Sys2Proof.Machine

def exec (i : Instr) (s : State) : Host.Outcome State Fault Refusal :=
  match i with
  | .rd r => Sys2Proof.Machine.execRd r s
  | .wr r v => Sys2Proof.Machine.execWr r v s
  | .extract => Sys2Proof.Machine.execExtract s
  | .checksum => Sys2Proof.Machine.execChecksum s
  | .patch => Sys2Proof.Machine.execPatch s
  | .run => Sys2Proof.Machine.execRun s
  | .crcInit => Sys2Proof.Machine.execCrcInit s
  | .crcByte b => Sys2Proof.Machine.execCrcByte b s

end Sys2Proof.Machine
end

