-- ==== Sys2Proof/Machine/Fetch.lean ====
section
/-! DEFINITION. Taking the host's next transaction or event (30_encoding.md R71, R72, R78; 70_reset_and_hazards.md
R180, R191). The block has no program counter (10_state.md R30): the host's pending bits take its place. -/

namespace Sys2Proof.Machine

/-- The bits the host sends before it does anything else. -/
def leadingBits : List HostEvent → List Bool
  | .bit b :: rest => b :: leadingBits rest
  | _ => []

/-- Whether reset is among the host's pending events. -/
def resetPending : List HostEvent → Bool
  | [] => false
  | .bit _ :: rest => resetPending rest
  | .reset :: _ => true

/-- What the host's pending events ask for; `s` is the state with that event taken. -/
inductive Fetched where
  /-- The host has nothing pending, or has not yet sent the whole of a transaction (entry 6). -/
  | waiting
  /-- The host applies reset. -/
  | reset (s : State)
  /-- A whole transaction. -/
  | instr (i : Instr) (s : State)
  /-- A header with one of bits 6:4 set; nothing but the header is taken (R78, entry 8). -/
  | malformed (isWrite : Bool) (s : State)
  /-- Reset before the end of a transaction (U11, entry 7). -/
  | brokenOff
  deriving DecidableEq, Repr

/-- The host's next transaction or event. A transaction takes exactly its own bits (R78); a refused write takes
the same bits as one that is not refused (entry 8). -/
def fetch (s : State) : Fetched :=
  match s.events with
  | [] => .waiting
  | .reset :: rest => .reset (s.withEvents rest)
  | .bit _ :: _ =>
    match decode s.par.aw (leadingBits s.events) with
    | .instr i => .instr i (s.consume (i.bitLength s.par.aw))
    | .malformed w => .malformed w (s.consume 8)
    | .incomplete => if resetPending s.events then .brokenOff else .waiting

/-- The state in which the next transaction is the one a word of the opcode table stands for. -/
def State.placeTableWord (s : State) (nbits w : Nat) : State :=
  s.withEvents ((tableBits s.par.aw nbits w).map .bit ++ s.events)

end Sys2Proof.Machine
end

