-- ==== Sys2Proof/Machine/Step.lean ====
section
/-! DEFINITION. One step: the host's next transaction or event, whole (00_scope.md R2, R9). -/

namespace Sys2Proof.Machine

/-- One step of the machine. With nothing whole pending the machine waits, unchanged (entry 6). -/
def step (s : State) : Host.Outcome State Fault Refusal :=
  match fetch s with
  | .waiting => .next s
  | .reset s' => .next s'.applyReset
  | .instr i s' => exec i s'
  | .malformed w s' => .next (s'.malformedHeader w)
  | .brokenOff => .refused .resetInsideTransaction

/-- `s` with a word of the opcode table as the host's next transaction (entry 5). -/
def State.withFetchWord (s : State) (nbits w : Nat) : State := s.placeTableWord nbits w

end Sys2Proof.Machine
end

