-- ==== Sys2Proof/WellFormed.lean ====
section
/-! DEFINITION. Well-formed instructions: the terms that have an encoding of their own (30_encoding.md R71, R74). -/

namespace Sys2Proof

/-- The value fits the write's data field (R74). -/
def valueFits (aw : Nat) (r : Reg) (v : Nat) : Bool := v < 2 ^ r.dataWidth aw

/-- The term is the one name of its bit string: a legal command word written to `CMD` is spelt as its command
(R75, entry 10). -/
def ownName (r : Reg) (v : Nat) : Bool :=
  match r with
  | .cmd => (commandOf v).isNone
  | _ => true

/-- An instruction that has an encoding of its own at address width `aw`. -/
def Instr.wf (aw : Nat) : Instr → Bool
  | .rd _ => true
  | .wr r v => valueFits aw r v && ownName r v
  | .extract => true
  | .checksum => true
  | .patch => true
  | .run => true
  | .crcInit => true
  | .crcByte _ => true

end Sys2Proof
end

