-- ==== Sys2Proof/Safety.lean ====
section
/-! DEFINITION. What counts as a legal state and as a run that ends well, and the readings of the spec that the
statements use. -/

namespace Sys2Proof.Machine

/-- The state an outcome goes on with, if it goes on. -/
def nextState? : Result → Option State
  | .next t => some t
  | .fault _ => none
  | .refused _ => none

/-- What every reachable state is like: the widths of 10_state.md R20, the canonical image, the shape of `BUF`
(R27) and the laws of `STATUS` (R23). -/
structure State.Inv (s : State) : Prop where
  /-- `AW ≥ 2` (00_scope.md R5). -/
  two_le_aw : 2 ≤ s.par.aw
  /-- The image is in canonical form, inside the address space (20_memory.md R50). -/
  image_wf : Memory.wf s.par.aw s.mem = true
  maxAddress_lt : s.maxAddress < 2 ^ s.par.aw
  start_lt : s.start < 2 ^ s.par.aw
  length_lt : s.length < 2 ^ s.par.aw
  crcAddr_lt : s.crcAddr < 2 ^ s.par.aw
  bufPtr_lt : s.bufPtr < 2 ^ (s.par.aw + 1)
  /-- `BUF` holds whole groups (R27). -/
  buf_groups : s.buf.length % 3 = 0
  /-- `BUF` is no longer than the widest window gives (R27). -/
  buf_le : s.buf.length ≤ 3 * (2 ^ s.par.aw - 2) / 2
  /-- Bits 7:2 and 15:14 read 0 (R23), and `E_RESULT_RANGE` (bit 12) is never set (60_exceptions.md R164). -/
  status_reserved : s.status &&& 0xD0FC = 0
  /-- `DONE` and `ERR` are never both 1 (R23). -/
  not_done_and_err : ¬(Status.done s.status = true ∧ Status.err s.status = true)
  /-- `ERR = 1` exactly when `CAUSE` is not zero (R23). -/
  err_iff_cause : Status.err s.status = true ↔ Status.cause s.status ≠ 0

/-- A run has ended well when `STATUS.ERR = 0` (70_reset_and_hazards.md R191). -/
def State.endedWell (s : State) : Prop := s.err = false

/-- Transactions applied in order (R191), stopping where one stops. -/
def execAll : List Instr → State → Result
  | [], s => .next s
  | i :: is, s =>
    match exec i s with
    | .next t => execAll is t
    | .fault f => .fault f
    | .refused r => .refused r

/-- The host sends whole transactions, one after the other (R71, R191). -/
def State.submit (s : State) (is : List Instr) : State := s.sendBits (is.flatMap (encode s.par.aw))

/-- Byte `j` of the window's byte stream, read from the words and not by the loop: group `j / 3`, in it Upper,
Higher, Lower (41_reorder.md R103, R104 second form). -/
def State.windowByte (s : State) (base j : Nat) : Byte :=
  match j % 3 with
  | 0 => (s.readFb (base + 2 * (j / 3) + 1) 0x00FF).extractLsb 7 0
  | 1 => (s.readFb (base + 2 * (j / 3)) 0xFFFF).extractLsb 15 8
  | _ => (s.readFb (base + 2 * (j / 3)) 0x00FF).extractLsb 7 0

/-- The whole byte stream of a window, `len + len/2` bytes (R105). -/
def State.windowBytes (s : State) (base len : Nat) : List Byte :=
  (List.range (len + len / 2)).map (s.windowByte base)

/-- The fill after an extraction: `0x00FF`, or what it was when the window is empty (R106). -/
def State.fillAfter (s : State) (len : Nat) : Word := if len = 0 then s.fill else 0x00FF

/-- The instructions that write the image: `PATCH` and `RUN` (20_memory.md R56), also as words written to `CMD`. -/
def writesImage : Instr → Bool
  | .patch => true
  | .run => true
  | .wr .cmd v => v == 0x3000 || v == 0x4000
  | _ => false

/-- The instructions that write `BUF`: `EXTRACT` and `RUN` (10_state.md R27), also as words written to `CMD`. -/
def writesBuf : Instr → Bool
  | .extract => true
  | .run => true
  | .wr .cmd v => v == 0x1000 || v == 0x4000
  | _ => false

/-- The instructions that write `CRC`: `CHECKSUM`, `RUN`, `CRCINIT`, `CRCBYTE` (10_state.md R24), also as words
written to `CMD`. -/
def writesCrc : Instr → Bool
  | .checksum => true
  | .run => true
  | .crcInit => true
  | .crcByte _ => true
  | .wr .cmd v => v == 0x2000 || v == 0x4000 || v == 0x5000 || v / 256 == 0x60
  | _ => false

/-- The instructions that can change `FILL`: `EXTRACT`, `RUN` (41_reorder.md R106) and a write of `FILL`
(40_host_access.md R90), the commands also as words written to `CMD`. -/
def writesFill : Instr → Bool
  | .extract => true
  | .run => true
  | .wr .cmd v => v == 0x1000 || v == 0x4000
  | .wr .fill _ => true
  | _ => false

/-- The causes a command can raise (60_exceptions.md R174, its last six rows). -/
def commandMayRaise : Command → List Cause
  | .extract => [.startOdd, .lenOdd, .range]
  | .checksum => []
  | .patch => [.crcAddrOdd]
  | .run => [.startOdd, .lenOdd, .range, .crcAddrOdd]
  | .crcInit => []
  | .crcByte _ => []

/-- Which transaction can raise what at address width `aw` (60_exceptions.md R174): a read of an unreadable register,
a write of an unwritable one or of a value too wide, and an undefined command word raise `E_ILLEGAL` alone; a legal
word written to `CMD` raises what its command raises. -/
def mayRaise (aw : Nat) : Instr → List Cause
  | .rd r => if r.readable then [] else [.illegal]
  | .wr .cmd v =>
    match commandOf v with
    | some k => commandMayRaise k
    | none => [.illegal]
  | .wr r v => if r.writable && valueFits aw r v then [] else [.illegal]
  | .extract => commandMayRaise .extract
  | .checksum => commandMayRaise .checksum
  | .patch => commandMayRaise .patch
  | .run => commandMayRaise .run
  | .crcInit => commandMayRaise .crcInit
  | .crcByte b => commandMayRaise (.crcByte b)

/-- The transaction the bits begin with is a read that fails: a read of an unreadable register, or a malformed header
with bit 7 clear (40_host_access.md R91, 30_encoding.md R72). -/
def isIllegalRead : Decoded → Bool
  | .instr (.rd r) => !r.readable
  | .malformed isWrite => !isWrite
  | _ => false

end Sys2Proof.Machine
end

