-- ==== Sys2Proof/Certificates/Slice0/Obligations.lean ====
section
/-! DEFINITION. The statements for the provers. `(s.status ||| 0x2002) &&& 0xFFFE` is `STATUS` after `E_ILLEGAL`
is raised, `s.status ||| 0x0001` is `STATUS` after a command completes (10_state.md R23, 60_exceptions.md R166). -/

open Sys2Proof Sys2Proof.Machine

/-! ### Reset, the invariant and the error state -/

/-- R33, R180: a reset event puts every element of the block at its reset value, `FILL` at `FILL_RESET`,
leaves the image and `MAXADDR` alone, and no other step clears `ERR` or a bit of `CAUSE`. That it leaves the model's
own list of pending events (entry 5) at the rest of the list, and the parameters, is the model's inference (entry 14,
DEDUCED), no rule of the spec. -/
def Obligations.ResetEventRestoresBlockAndAloneClearsError : Prop :=
  (∀ (s : State) (rest : List HostEvent), s.events = .reset :: rest →
    ∃ t, step s = .next t ∧ t.start = 0 ∧ t.length = 0 ∧ t.crcAddr = 0 ∧ t.bufPtr = 0 ∧ t.crc = 0xFFFF ∧
      t.status = 0x0000 ∧ t.buf = [] ∧ t.regRead .bufLen = some 0 ∧ t.regRead .bufData = some 0 ∧
      t.fill = s.par.fillReset ∧ t.mem = s.mem ∧ t.maxAddress = s.maxAddress ∧ t.par = s.par ∧ t.events = rest) ∧
  ∀ s t : State, step s = .next t → (∀ rest, s.events ≠ .reset :: rest) →
    (Status.err s.status = true → Status.err t.status = true) ∧
    ∀ i, 8 ≤ i → s.status.getLsbD i = true → t.status.getLsbD i = true

/-- The table of R33 for the machine `State.reset` describes. The empty image, `MAXADDR` 0, no pending event and
no reply are the model's choices (entries 3, 5 and 9); `AW` 32 is the spec's default (entry 1). -/
def Obligations.ResetStateHasTheStatedValues : Prop :=
  State.reset.start = 0 ∧ State.reset.length = 0 ∧ State.reset.crcAddr = 0 ∧ State.reset.bufPtr = 0 ∧
    State.reset.crc = 0xFFFF ∧ State.reset.status = 0x0000 ∧ State.reset.buf = [] ∧
    State.reset.fill = State.reset.par.fillReset ∧ State.reset.par.aw = 32 ∧ State.reset.mem = [] ∧
    State.reset.maxAddress = 0 ∧ State.reset.events = [] ∧ State.reset.reply = .noReply

/-- The invariant holds right after reset. -/
def Obligations.ResetStateMeetsInvariant : Prop := State.reset.Inv

/-- Every step keeps the invariant: widths (R20), canonical image (R50), shape of `BUF` (R27), laws of `STATUS`
(R23), `E_RESULT_RANGE` never set (R164). -/
def Obligations.EveryStepKeepsTheInvariant : Prop :=
  ∀ s t : State, s.Inv → step s = .next t → t.Inv

/-- In a state that meets the invariant no step faults (every address formed is below `2^AW`, R62), and the only
step without a next state is reset inside a transaction (entry 7). -/
def Obligations.StepStopsOnlyForResetInsideTransaction : Prop :=
  ∀ s : State, s.Inv → (∃ t, step s = .next t) ∨
    (step s = .refused .resetInsideTransaction ∧ resetPending s.events = true ∧
      decode s.par.aw (leadingBits s.events) = .incomplete)

/-- In a state that meets the invariant every transaction has one of the outcomes of R9, each a next state:
it completes, returns a value, fails, or is refused. -/
def Obligations.EveryTransactionHasOneOfTheThreeOutcomes : Prop :=
  ∀ (s : State) (i : Instr), s.Inv → ∃ t, exec i s = .next t ∧
    (t.reply = .completed ∨ (∃ v, t.reply = .value v) ∨ t.reply = .failed ∨ (t.reply = .refused ∧ s.err = true))

/-- R23 and C5: in the error state no step but reset changes the block, but that a failing read (a read of an
unreadable register, or a malformed header with bit 7 clear, R72) sets `CAUSE.E_ILLEGAL`; any other step leaves
`STATUS`. -/
def Obligations.ErrorStateIsFrozenButForIllegalReads : Prop :=
  ∀ s t : State, s.Inv → s.err = true → (∀ rest, s.events ≠ .reset :: rest) → step s = .next t →
    t = { s with status := t.status, events := t.events, reply := t.reply } ∧
    t.status =
      if isIllegalRead (decode s.par.aw (leadingBits s.events)) = true then s.status ||| 0x2000 else s.status

/-- R166: an instruction that fails raises a non-empty set of causes (of those R174 gives it: a word written to `CMD`
those of its command, or `E_ILLEGAL` alone where it is undefined), ORs them into
`CAUSE`, sets `ERR`, clears `DONE`, and changes nothing else; and so does whatever raises a set of causes. -/
def Obligations.FailureChangesOnlyStatus : Prop :=
  (∀ (i : Instr) (s t : State), exec i s = .next t → t.reply = .failed →
    ∃ V : List Cause, V ≠ [] ∧ (∀ e ∈ V, e ∈ mayRaise s.par.aw i) ∧ t = s.fail V) ∧
  ∀ (s : State) (V : List Cause),
    s.fail V = { s with status := (s.fail V).status, reply := .failed } ∧
    ∀ b, (s.fail V).status.getLsbD b =
      if b = 0 then false
      else if b = 1 then true
      else s.status.getLsbD b || V.any (fun e => e.bit == b)

/-- R168: in the error state every write, to any register and with any value, and so every command, changes
nothing; reads work as ever: a legal one returns what R91 says, an illegal one adds `E_ILLEGAL`. -/
def Obligations.ErrorStateRefusesEveryWrite : Prop :=
  ∀ s : State, s.err = true →
    (∀ r v, exec (.wr r v) s = .next { s with reply := .refused }) ∧
    exec .extract s = .next { s with reply := .refused } ∧
    exec .checksum s = .next { s with reply := .refused } ∧
    exec .patch s = .next { s with reply := .refused } ∧
    exec .run s = .next { s with reply := .refused } ∧
    exec .crcInit s = .next { s with reply := .refused } ∧
    (∀ b, exec (.crcByte b) s = .next { s with reply := .refused }) ∧
    (∀ r v, s.regRead r = some v → exec (.rd r) s = .next { s with reply := .value v }) ∧
    (∀ r, s.regRead r = none →
      exec (.rd r) s = .next { s with status := (s.status ||| 0x2002) &&& 0xFFFE, reply := .failed }) ∧
    ∀ r, (s.regRead r).isSome = r.readable

/-- R23, R92: a read or a refused write leaves `STATUS`, a completed write to another register than `CMD` too, and
a completed command sets `DONE` and nothing else of it. -/
def Obligations.OutcomeDeterminesStatus : Prop :=
  ∀ (i : Instr) (s t : State), exec i s = .next t →
    ((∃ v, t.reply = .value v) → t.status = s.status) ∧
    (t.reply = .refused → t.status = s.status) ∧
    (t.reply = .completed → t.status =
      match i with
      | .rd _ => s.status
      | .wr .cmd _ => s.status ||| 0x0001
      | .wr _ _ => s.status
      | _ => s.status ||| 0x0001)

/-! ### Encoding, fetching and the step -/

/-- Bit strings of 95_test_vectors.md section 2.7 at `AW = 32`, one or more of every family. -/
def Obligations.BitStringsOfTheSpecDecode : Prop :=
  decode 32 (bitsOfNat 8 0x01) = .instr (.rd .status) ∧
    decode 32 (bitsOfNat 8 0x05) = .instr (.rd .crc) ∧
    decode 32 (bitsOfNat 40 0x8200000100) = .instr (.wr .start 0x100) ∧
    decode 32 (bitsOfNat 24 0x86BEEF) = .instr (.wr .fill 0xBEEF) ∧
    decode 32 (bitsOfNat 41 (0x89 * 2 ^ 33 + 3)) = .instr (.wr .bufPtr 3) ∧
    decode 32 (bitsOfNat 24 0x801000) = .instr .extract ∧
    decode 32 (bitsOfNat 24 0x802000) = .instr .checksum ∧
    decode 32 (bitsOfNat 24 0x803000) = .instr .patch ∧
    decode 32 (bitsOfNat 24 0x804000) = .instr .run ∧
    decode 32 (bitsOfNat 24 0x805000) = .instr .crcInit ∧
    decode 32 (bitsOfNat 24 0x806031) = .instr (.crcByte 0x31)

/-- Every well-formed instruction, with every operand its encoding admits, at every address width and whatever
follows it, decodes to itself. -/
def Obligations.DecodeOfEncodeIsTheInstruction : Prop :=
  ∀ (aw : Nat) (i : Instr) (rest : List Bool), i.wf aw = true → decode aw (encode aw i ++ rest) = .instr i

/-- The other direction: what decodes to an instruction begins with that instruction's encoding, and the
instruction is well-formed; so no two bit strings of an instruction's own length decode to it (entry 10 for the
spelling of commands). -/
def Obligations.DecodedBitsAreTheEncoding : Prop :=
  ∀ (aw : Nat) (bits : List Bool) (i : Instr), decode aw bits = .instr i →
    i.wf aw = true ∧ bits.take (i.bitLength aw) = encode aw i

/-- R73: the legal command words are `0x1000`, `0x2000`, `0x3000`, `0x4000`, `0x5000` and `0x6000` to `0x60FF`,
each the command R75 names; every other word is illegal. -/
def Obligations.CommandWordsAreExactlyThoseOfTheMap : Prop :=
  ∀ c : Word, decodeCommand c =
    if c = 0x1000 then some .extract
    else if c = 0x2000 then some .checksum
    else if c = 0x3000 then some .patch
    else if c = 0x4000 then some .run
    else if c = 0x5000 then some .crcInit
    else if 0x6000 ≤ c.toNat ∧ c.toNat ≤ 0x60FF then some (.crcByte (BitVec.ofNat 8 c.toNat))
    else none

/-- A step runs the decoded instruction: when the host's pending bits decode to `i`, the step is `exec i` in the
state with exactly the bits of `i` taken. That a write refused in the error state takes its data bits too is the
model's choice (entry 8, DESIGN CHOICE), and so is the list of pending events itself (entry 5). -/
def Obligations.StepRunsTheDecodedTransaction : Prop :=
  ∀ (s : State) (i : Instr), decode s.par.aw (leadingBits s.events) = .instr i →
    step s = exec i { s with events := s.events.drop (i.bitLength s.par.aw) }

/-- The same from the encoder's side, for every well-formed instruction and whatever the host does next.
That a write refused in the error state takes its data bits too is the model's choice (entry 8, DESIGN CHOICE), and so
is the list of pending events itself (entry 5). -/
def Obligations.StepRunsTheEncodedTransaction : Prop :=
  ∀ (s : State) (i : Instr) (rest : List HostEvent), i.wf s.par.aw = true →
    s.events = (encode s.par.aw i).map .bit ++ rest → step s = exec i { s with events := rest }

/-- R72, R76: a header with one of bits 6:4 set fails `E_ILLEGAL` on its header alone, but that it is refused when
bit 7 is set in the error state. That a refused one takes only its header is the model's choice (entry 8). -/
def Obligations.MalformedHeaderFailsOrIsRefused : Prop :=
  ∀ (s : State) (h : Byte) (rest : List HostEvent), h.extractLsb 6 4 ≠ 0 →
    s.events = (bitsOfNat 8 h.toNat).map .bit ++ rest →
    step s = .next
      (if h.getLsbD 7 = true ∧ s.err = true then { s with events := rest, reply := .refused }
       else { s with events := rest, status := (s.status ||| 0x2002) &&& 0xFFFE, reply := .failed })

/-- R78: a write whose index is undefined or read-only fails on its header, and what follows is not consumed. -/
def Obligations.WriteToUnwritableRegisterTakesNoData : Prop :=
  ∀ (s : State) (r : Reg) (rest : List HostEvent), r.writable = false → s.err = false →
    s.events = (headerBits true r).map .bit ++ rest →
    step s = .next { s with events := rest, status := (s.status ||| 0x2002) &&& 0xFFFE, reply := .failed }

/-- The model's choices for a host that has nothing whole to send (entry 6) and for reset inside a transaction
(U11, entry 7): the machine waits unchanged; the step is refused by name. -/
def Obligations.StepWaitsForAWholeTransaction : Prop :=
  ∀ s : State, decode s.par.aw (leadingBits s.events) = .incomplete → (∀ rest, s.events ≠ .reset :: rest) →
    step s = if resetPending s.events = true then .refused .resetInsideTransaction else .next s

/-- The word of the opcode table that the host's interface places is the transaction that runs next. How it is
placed, a write row with a data field of zeros, is the model's choice (entry 5, DESIGN CHOICE), and so is that a write
placed in the error state takes those zeros though it is refused (entry 8, DESIGN CHOICE). -/
def Obligations.PlacedTableWordRunsNext : Prop :=
  ∀ (s : State) (nbits w : Nat) (i : Instr), decodeTableWord nbits w = some i →
    step (s.withFetchWord nbits w) = exec i s

/-! ### Register access -/

/-- R91: what each read returns, in every state, the error state included; an illegal read fails; the value
returned fits `width(r)` bits; the encoding; `RD CRC` after reset and `RD FILL` after an `EXTRACT`. -/
def Obligations.ReadReturnsTheRegister : Prop :=
  (∀ s : State,
    exec (.rd .status) s = .next { s with reply := .value s.status.toNat } ∧
    exec (.rd .start) s = .next { s with reply := .value s.start } ∧
    exec (.rd .length) s = .next { s with reply := .value s.length } ∧
    exec (.rd .crcAddr) s = .next { s with reply := .value s.crcAddr } ∧
    exec (.rd .crc) s = .next { s with reply := .value s.crc.toNat } ∧
    exec (.rd .fill) s = .next { s with reply := .value s.fill.toNat } ∧
    exec (.rd .maxAddr) s = .next { s with reply := .value s.maxAddress } ∧
    exec (.rd .bufLen) s = .next { s with reply := .value s.buf.length } ∧
    exec (.rd .bufPtr) s = .next { s with reply := .value s.bufPtr } ∧
    (∀ h : s.bufPtr < s.buf.length, exec (.rd .bufData) s = .next { s with reply := .value (s.buf[s.bufPtr]).toNat }) ∧
    (s.buf.length ≤ s.bufPtr → exec (.rd .bufData) s = .next { s with reply := .value 0 }) ∧
    ∀ r ∈ [Reg.cmd, .undef11, .undef12, .undef13, .undef14, .undef15],
      exec (.rd r) s = .next { s with status := (s.status ||| 0x2002) &&& 0xFFFE, reply := .failed }) ∧
  (∀ (s t : State) (r : Reg) (v : Nat), s.Inv → exec (.rd r) s = .next t → t.reply = .value v →
    v < 2 ^ r.width s.par.aw) ∧
  (∀ aw r, encode aw (.rd r) = [false, false, false, false] ++ bitsOfNat 4 r.index) ∧
  (∀ s : State, exec (.rd .crc) s.applyReset = .next { s.applyReset with reply := .value 0xFFFF }) ∧
  ∀ s t : State, exec .extract s = .next t → t.reply = .completed → 2 ≤ s.length →
    exec (.rd .fill) t = .next { t with reply := .value 0x00FF }

/-- R90: a write of a value that fits stores it, odd or not, and changes nothing else. -/
def Obligations.WriteStoresTheValue : Prop :=
  ∀ (s : State) (v : Nat), s.err = false →
    (v < 2 ^ s.par.aw → exec (.wr .start v) s = .next { s with start := v, reply := .completed }) ∧
    (v < 2 ^ s.par.aw → exec (.wr .length v) s = .next { s with length := v, reply := .completed }) ∧
    (v < 2 ^ s.par.aw → exec (.wr .crcAddr v) s = .next { s with crcAddr := v, reply := .completed }) ∧
    (v < 2 ^ 16 → exec (.wr .fill v) s = .next { s with fill := BitVec.ofNat 16 v, reply := .completed }) ∧
    (v < 2 ^ (s.par.aw + 1) → exec (.wr .bufPtr v) s = .next { s with bufPtr := v, reply := .completed })

/-- R90, R76: a write of a read-only or undefined register, or of a value that does not fit, fails `E_ILLEGAL` and
the target keeps its value. -/
def Obligations.IllegalWriteFails : Prop :=
  ∀ (s : State) (r : Reg) (v : Nat), s.err = false → (r.writable = false ∨ 2 ^ r.width s.par.aw ≤ v) →
    exec (.wr r v) s = .next { s with status := (s.status ||| 0x2002) &&& 0xFFFE, reply := .failed }

/-- R90, R73: a legal command word written to `CMD` executes its command; an undefined one fails `E_ILLEGAL`. -/
def Obligations.WriteToCmdExecutesTheCommand : Prop :=
  ∀ (s : State) (c : Word),
    (∀ k, decodeCommand c = some k → exec (.wr .cmd c.toNat) s = exec k.toInstr s) ∧
    (decodeCommand c = none → s.err = false →
      exec (.wr .cmd c.toNat) s = .next { s with status := (s.status ||| 0x2002) &&& 0xFFFE, reply := .failed })

/-- R29: a writable register stores every value of its width and reads it back unchanged. -/
def Obligations.WrittenValueReadsBack : Prop :=
  ∀ (s : State) (r : Reg) (v : Nat), s.err = false → r.writable = true → r ≠ .cmd → v < 2 ^ r.width s.par.aw →
    ∃ t, exec (.wr r v) s = .next t ∧ exec (.rd r) t = .next { t with reply := .value v }

/-- R21, R26, R32: the operand registers and `BUFPTR` change only by the host's write of that register, to the
value written; `MAXADDR`, the parameters and the host's pending events change by no instruction. -/
def Obligations.RegistersChangeOnlyByTheirOwnWrite : Prop :=
  ∀ (i : Instr) (s t : State), exec i s = .next t →
    (t.start ≠ s.start → i = .wr .start t.start) ∧ (t.length ≠ s.length → i = .wr .length t.length) ∧
    (t.crcAddr ≠ s.crcAddr → i = .wr .crcAddr t.crcAddr) ∧ (t.bufPtr ≠ s.bufPtr → i = .wr .bufPtr t.bufPtr) ∧
    t.maxAddress = s.maxAddress ∧ t.par = s.par ∧ t.events = s.events

/-- R56, R27, R24, R25: only `PATCH` and `RUN` change the image, and only in the two slots at `CRCADDR`; only
`EXTRACT` and `RUN` change `BUF`; only the CRC commands and `RUN` change `CRC`; only `EXTRACT`, `RUN` and a write
of `FILL` change `FILL`. -/
def Obligations.InstructionsWriteOnlyTheirOwnState : Prop :=
  ∀ (i : Instr) (s t : State), exec i s = .next t →
    (writesImage i = false → t.mem = s.mem) ∧
    (∀ a, a ≠ s.crcAddr → a ≠ s.crcAddr + 1 → Memory.lookup t.mem a = Memory.lookup s.mem a) ∧
    (writesBuf i = false → t.buf = s.buf) ∧ (writesCrc i = false → t.crc = s.crc) ∧
    (writesFill i = false → t.fill = s.fill)

/-! ### The reorder engine -/

/-- R100: `EXTRACT`, the command word `0x1000`, on a valid window completes; `BUF` is the window's byte stream
(R103, and decision D7 of the spec for the Upper read), `FILL` is `0x00FF` unless the window is empty (R106), `DONE`
is set, and nothing else changes. On any other window it fails with the violated constraints. With the example. -/
def Obligations.ExtractFillsTheBufferFromTheWindow : Prop :=
  (∀ s : State, s.Inv → s.err = false → s.start % 2 = 0 → s.length % 2 = 0 → s.start + s.length ≤ s.maxAddress →
    exec .extract s = .next
      { s with buf := s.windowBytes s.start s.length, fill := s.fillAfter s.length,
               status := s.status ||| 0x0001, reply := .completed }) ∧
  (∀ s : State, s.err = false → s.checkWindow s.start s.length ≠ [] →
    exec .extract s = .next
      { s with status := Status.raise (s.checkWindow s.start s.length) s.status, reply := .failed }) ∧
  decodeCommand 0x1000 = some .extract ∧
  ∀ s : State, s.mem = [(0, 0x1111), (1, 0x2222), (2, 0x3333), (3, 0x4444), (4, 0x5555), (5, 0x6666)] →
    s.windowBytes 0 6 = [0x22, 0x11, 0x11, 0x44, 0x33, 0x33, 0x66, 0x55, 0x55]

/-- R101: `CheckWindow(base, len)` is the set of exactly the violated constraints, the sum on natural numbers, and
reads `MAXADDR` and nothing else of the image. -/
def Obligations.CheckWindowIsTheSetOfViolatedConstraints : Prop :=
  (∀ (s : State) (base len : Nat) (e : Cause), e ∈ s.checkWindow base len ↔
    (e = .startOdd ∧ base % 2 = 1) ∨ (e = .lenOdd ∧ len % 2 = 1) ∨ (e = .range ∧ s.maxAddress < base + len)) ∧
  ∀ (s t : State) (base len : Nat), s.maxAddress = t.maxAddress → s.checkWindow base len = t.checkWindow base len

/-- R108, R105, R110: the size of the output, always, the empty window too; and byte by byte, what a present and an
absent word contribute. The `0xFF`
of an absent odd-offset word is decision D7 of the spec. -/
def Obligations.ExtractedBytesByPresence : Prop :=
  ∀ (s : State) (base len : Nat),
    (s.extract base len).2.length = 3 * (len / 2) ∧
    (len % 2 = 0 → (s.extract base len).2.length = len + len / 2) ∧
    ∀ k, k < len / 2 →
      (s.extract base len).2[3 * k]? =
        some (match Memory.lookup s.mem (base + 2 * k + 1) with | some w => w.extractLsb 7 0 | none => 0xFF#8) ∧
      (s.extract base len).2[3 * k + 1]? =
        some (match Memory.lookup s.mem (base + 2 * k) with | some w => w.extractLsb 15 8 | none => 0xFF#8) ∧
      (s.extract base len).2[3 * k + 2]? =
        some (match Memory.lookup s.mem (base + 2 * k) with | some w => w.extractLsb 7 0 | none => 0xFF#8)

/-- R107, R109: the bytes of an extraction depend on the words and the presence of the slots in the window and on
nothing else: not on the fill before, nor on any slot outside. -/
def Obligations.ExtractionDependsOnlyOnTheWindow : Prop :=
  ∀ (s t : State) (base len : Nat),
    (∀ a, base ≤ a → a < base + len → Memory.lookup s.mem a = Memory.lookup t.mem a) →
    (s.extract base len).2 = (t.extract base len).2

/-- R160 to R163: `EXTRACT`, `PATCH` and `RUN` with violated constraints fail, each violated
constraint sets its own cause bit and no other, sums are on natural numbers, and nothing but `STATUS` changes. -/
def Obligations.EveryViolatedConstraintIsReported : Prop :=
  ∀ s : State, s.err = false →
    ((s.start % 2 = 1 ∨ s.length % 2 = 1 ∨ s.maxAddress < s.start + s.length) →
      ∃ t, exec .extract s = .next t ∧ t = { s with status := t.status, reply := .failed } ∧
        ∀ b, t.status.getLsbD b =
          if b = 0 then false
          else if b = 1 then true
          else s.status.getLsbD b || (b == 8 && s.start % 2 == 1) || (b == 9 && s.length % 2 == 1)
            || (b == 10 && decide (s.maxAddress < s.start + s.length))) ∧
    (s.crcAddr % 2 = 1 →
      ∃ t, exec .patch s = .next t ∧ t = { s with status := t.status, reply := .failed } ∧
        ∀ b, t.status.getLsbD b =
          if b = 0 then false else if b = 1 then true else s.status.getLsbD b || b == 11) ∧
    ((s.start % 2 = 1 ∨ s.length % 2 = 1 ∨ s.maxAddress < s.start + s.length ∨ s.crcAddr % 2 = 1) →
      ∃ t, exec .run s = .next t ∧ t = { s with status := t.status, reply := .failed } ∧
        ∀ b, t.status.getLsbD b =
          if b = 0 then false
          else if b = 1 then true
          else s.status.getLsbD b || (b == 8 && s.start % 2 == 1) || (b == 9 && s.length % 2 == 1)
            || (b == 10 && decide (s.maxAddress < s.start + s.length)) || (b == 11 && s.crcAddr % 2 == 1))

/-! ### The CRC -/

/-- R121 in gates: bit 0 is the feedback, bits 2 and 15 take it in, every other bit moves up. -/
def Obligations.CrcBitInGates : Prop :=
  ∀ (c : Word) (d : Bool) (i : Nat), i < 16 →
    (crcBit c d).getLsbD i =
      if i = 0 then c.getLsbD 15 ^^ d
      else if i = 2 then c.getLsbD 1 ^^ (c.getLsbD 15 ^^ d)
      else if i = 15 then c.getLsbD 14 ^^ (c.getLsbD 15 ^^ d)
      else c.getLsbD (i - 1)

/-- R123: the byte meets the high byte of the register, then eight shifts. -/
def Obligations.CrcByteIsXorThenEightShifts : Prop :=
  ∀ (c : Word) (b : Byte), crcByte c b =
    (fun t : Word => if t.getLsbD 15 = true then (t <<< 1) ^^^ 0x8005#16 else t <<< 1)^[8]
      (c ^^^ (b.setWidth 16 <<< 8))

/-- R126: the table form. -/
def Obligations.CrcByteFromTable : Prop :=
  ∀ (c : Word) (b : Byte), crcByte c b = (c <<< 8) ^^^ crcByte 0 (c.extractLsb 15 8 ^^^ b)

/-- R125 (a): `CrcByte` is linear over GF(2). -/
def Obligations.CrcByteIsLinear : Prop :=
  ∀ (c₁ c₂ : Word) (b₁ b₂ : Byte), crcByte (c₁ ^^^ c₂) (b₁ ^^^ b₂) = crcByte c₁ b₁ ^^^ crcByte c₂ b₂

/-- R125 (b): a message followed by its own checksum has checksum 0. -/
def Obligations.MessageWithItsChecksumHasResidueZero : Prop :=
  ∀ B : List Byte, crc16 (B ++ [(crc16 B).extractLsb 15 8, (crc16 B).extractLsb 7 0]) = 0

/-- R125: `Crc16` is the remainder of a polynomial division over GF(2) by `x^16 + x^15 + x^2 + 1`. The reading of
"augmented" behind `Crc16` is decision D9 of the spec. -/
def Obligations.Crc16IsThePolynomialRemainder : Prop :=
  ∀ B : List Byte,
    (∑ i ∈ Finset.range 16, if (crc16 B).getLsbD i = true then (Polynomial.X : Polynomial (ZMod 2)) ^ i else 0) =
      ((∑ i ∈ Finset.range 16, (Polynomial.X : Polynomial (ZMod 2)) ^ i) * Polynomial.X ^ (8 * B.length) +
        (∑ j ∈ Finset.range (8 * B.length),
          if (B.getD (j / 8) 0).getLsbD (7 - j % 8) = true
          then (Polynomial.X : Polynomial (ZMod 2)) ^ (8 * B.length - 1 - j) else 0) * Polynomial.X ^ 16)
      %ₘ (Polynomial.X ^ 16 + Polynomial.X ^ 15 + Polynomial.X ^ 2 + 1)

/-- Values of `Crc16` from 95_test_vectors.md section 2.3: the source's one value, the vector that tells the
readings of decision D9 apart, and the buffer of the source's example. -/
def Obligations.Crc16ValuesOfTheSpec : Prop :=
  crc16 [] = 0xFFFF ∧
    crc16 [0x31, 0x32, 0x33, 0x34, 0x35, 0x36, 0x37, 0x38, 0x39] = 0xAEE7 ∧
    crc16 [0x22, 0x11, 0x11, 0x44, 0x33, 0x33, 0x66, 0x55, 0x55] = 0xFCFC

/-- R128: `CRCINIT`, the command word `0x5000`, loads `0xFFFF`, sets `DONE`, and changes nothing else. -/
def Obligations.CrcInitLoadsTheInitialValue : Prop :=
  (∀ s : State, s.err = false →
    exec .crcInit s = .next { s with crc := 0xFFFF, status := s.status ||| 0x0001, reply := .completed }) ∧
  decodeCommand 0x5000 = some .crcInit

/-- R129: `CRCBYTE b`, the command word `0x6000 + b`, shifts `b` into `CRC` from whatever it holds, bit 7 first, sets `DONE`, and changes nothing
else, for every `b`; with the example of the rule. -/
def Obligations.CrcByteShiftsInOneByte : Prop :=
  (∀ (s : State) (b : Byte), s.err = false →
    exec (.crcByte b) s = .next
      { s with crc := (List.range 8).foldl (fun c k => crcBit c (b.getLsbD (7 - k))) s.crc,
               status := s.status ||| 0x0001, reply := .completed }) ∧
  (∀ b : Byte, decodeCommand (0x6000#16 + b.setWidth 16) = some (.crcByte b)) ∧
  crcByte 0x0000 0x00 = 0x0000 ∧ crcByte 0xFFFF 0x31 = 0x7DA7

/-- R130: `CHECKSUM`, the command word `0x2000`, leaves the checksum of the whole of `BUF` in `CRC`, from `0xFFFF` whatever `CRC` held, sets
`DONE`, and changes nothing else; with the corner case and the example of the rule. -/
def Obligations.ChecksumIsTheCrcOfTheBuffer : Prop :=
  (∀ s : State, s.err = false →
    exec .checksum s = .next
      { s with crc := s.buf.foldl crcByte 0xFFFF, status := s.status ||| 0x0001, reply := .completed }) ∧
  (∀ s : State, s.err = false → s.buf = [] →
    exec .checksum s = .next { s with crc := 0xFFFF, status := s.status ||| 0x0001, reply := .completed }) ∧
  decodeCommand 0x2000 = some .checksum ∧
  crc16 [0x22, 0x11, 0x11, 0x44, 0x33, 0x33, 0x66, 0x55, 0x55] = 0xFCFC

/-- R132: `CRCINIT` and the bytes of a message one by one leave the checksum of the message in `CRC`; with `CRC`
at `0xFFFF`, as after reset, the `CRCINIT` may be left out. -/
def Obligations.StreamedBytesGiveTheChecksum : Prop :=
  ∀ (s : State) (B : List Byte), s.err = false →
    execAll (.crcInit :: B.map .crcByte) s = .next
      { s with crc := crc16 B, status := s.status ||| 0x0001, reply := .completed } ∧
    (s.crc = 0xFFFF → B ≠ [] →
      execAll (B.map .crcByte) s = .next
        { s with crc := crc16 B, status := s.status ||| 0x0001, reply := .completed })

/-! ### The write-back stage -/

/-- R140: `PATCH`, the command word `0x3000`, with an even `CRCADDR`, wherever it lies, stores `CRC` at `CRCADDR` and
`0x0000` at `CRCADDR + 1`, both present afterwards, sets `DONE`, and changes nothing else; with an odd `CRCADDR` it
fails `E_CRCADDR_ODD` and stores nothing. -/
def Obligations.PatchStoresTheChecksum : Prop :=
  (∀ s : State, s.Inv → s.err = false → s.crcAddr % 2 = 0 →
    ∃ t, exec .patch s = .next t ∧
      Memory.lookup t.mem s.crcAddr = some s.crc ∧ Memory.lookup t.mem (s.crcAddr + 1) = some 0x0000 ∧
      (∀ a, a ≠ s.crcAddr → a ≠ s.crcAddr + 1 → Memory.lookup t.mem a = Memory.lookup s.mem a) ∧
      t = { s with mem := t.mem, status := s.status ||| 0x0001, reply := .completed }) ∧
  (∀ s : State, s.err = false → s.crcAddr % 2 = 1 →
    exec .patch s = .next { s with status := (s.status ||| 0x0802) &&& 0xFFFE, reply := .failed }) ∧
  decodeCommand 0x3000 = some .patch

/-- R52, R53: a read returns the word of a present slot and the fill of an absent one; a write stores the word, makes
its slot present, and leaves every other slot, `FILL` and `MAXADDR` (and everything else) alone. -/
def Obligations.ImageReadsAndWrites : Prop :=
  (∀ (s : State) (a : Nat) (f : Word),
    s.imgRead a = s.readFb a s.fill ∧
    (s.present a = false → s.readFb a f = f) ∧
    (∀ w, Memory.lookup s.mem a = some w → s.present a = true ∧ s.readFb a f = w)) ∧
  ∀ (s : State) (a b : Nat) (v f : Word),
    ((s.imgWrite a v).present b = if b = a then true else s.present b) ∧
    ((s.imgWrite a v).readFb b f = if b = a then v else s.readFb b f) ∧
    s.imgWrite a v = { s with mem := (s.imgWrite a v).mem }

/-- R141, R145: `Patch(A, R)` for any natural number `R` writes exactly two slots; for the 16-bit value the block
stores the second word is `0x0000`, and under the guard it is at most `0x000F`. -/
def Obligations.PatchWritesExactlyTwoSlots : Prop :=
  (∀ (s : State) (A R : Nat),
    Memory.lookup (s.patch A R).mem A = some (BitVec.ofNat 16 (R % 2 ^ 16)) ∧
    Memory.lookup (s.patch A R).mem (A + 1) = some (BitVec.ofNat 16 (R / 2 ^ 16 % 2 ^ 8)) ∧
    (∀ a, a ≠ A → a ≠ A + 1 → Memory.lookup (s.patch A R).mem a = Memory.lookup s.mem a) ∧
    s.patch A R = { s with mem := (s.patch A R).mem } ∧
    (R < 2 ^ 20 → R / 2 ^ 16 % 2 ^ 8 ≤ 0x000F)) ∧
  ∀ (s : State) (A : Nat), Memory.lookup (s.patch A s.patchValue).mem (A + 1) = some 0x0000

/-- R143: `CheckPatch(A, R)` is the set of exactly the violated constraints; where it has no `E_CRCADDR_ODD`, the
second slot lies in the address space too. -/
def Obligations.CheckPatchIsTheSetOfViolatedConstraints : Prop :=
  (∀ (A R : Nat) (e : Cause), e ∈ checkPatch A R ↔
    (e = .crcAddrOdd ∧ A % 2 = 1) ∨ (e = .resultRange ∧ 2 ^ 20 ≤ R)) ∧
  ∀ aw A R : Nat, 2 ≤ aw → A < 2 ^ aw → .crcAddrOdd ∉ checkPatch A R → A + 1 < 2 ^ aw

/-- R142, R164: the value to store is `CRC` and below `2^16`, so the guard never fails, and no instruction changes
the bit of `E_RESULT_RANGE`. -/
def Obligations.ResultGuardNeverFails : Prop :=
  (∀ s : State, s.patchValue = s.crc.toNat ∧ s.patchValue < 2 ^ 16 ∧ checkResult s.patchValue = []) ∧
  ∀ (i : Instr) (s t : State), exec i s = .next t → t.status.getLsbD 12 = s.status.getLsbD 12

/-! ### The sequencer -/

/-- R150, R154: `RUN`, the command word `0x4000`, with valid operands completes: `BUF` is the byte stream of the
window as it was before, `CRC` its checksum, the two slots at `CRCADDR` hold the checksum and `0x0000`, every other
slot is as before, `DONE` is set, and nothing else changes. With any other operands it fails with the violated
constraints. Right after reset it completes whatever `MAXADDR` is. With the example. -/
def Obligations.RunExtractsChecksumsAndPatches : Prop :=
  (∀ s : State, s.Inv → s.err = false → s.start % 2 = 0 → s.length % 2 = 0 → s.start + s.length ≤ s.maxAddress →
    s.crcAddr % 2 = 0 →
    ∃ t, exec .run s = .next t ∧
      Memory.lookup t.mem s.crcAddr = some (crc16 (s.windowBytes s.start s.length)) ∧
      Memory.lookup t.mem (s.crcAddr + 1) = some 0x0000 ∧
      (∀ a, a ≠ s.crcAddr → a ≠ s.crcAddr + 1 → Memory.lookup t.mem a = Memory.lookup s.mem a) ∧
      t = { s with mem := t.mem, buf := s.windowBytes s.start s.length,
                   crc := crc16 (s.windowBytes s.start s.length), fill := s.fillAfter s.length,
                   status := s.status ||| 0x0001, reply := .completed }) ∧
  (∀ s : State, s.err = false → s.checkRun s.start s.length s.crcAddr ≠ [] →
    exec .run s = .next
      { s with status := Status.raise (s.checkRun s.start s.length s.crcAddr) s.status, reply := .failed }) ∧
  (∀ s : State, s.Inv → ∃ t, exec .run s.applyReset = .next t ∧ t.reply = .completed ∧
    Memory.lookup t.mem 0 = some 0xFFFF ∧ Memory.lookup t.mem 1 = some 0x0000) ∧
  decodeCommand 0x4000 = some .run ∧
  ∀ s : State, s.mem = [(0, 0x1111), (1, 0x2222), (2, 0x3333), (3, 0x4444), (4, 0x5555), (5, 0x6666)] →
    crc16 (s.windowBytes 0 6) = 0xFCFC

/-- R153: with valid operands `RUN` leaves exactly the state that `EXTRACT ; CHECKSUM ; PATCH` leaves; with only
`CRCADDR` odd the sequence has changed `BUF`, `FILL` and `CRC` before it fails. -/
def Obligations.RunEqualsTheThreeCommands : Prop :=
  ∀ s : State, s.Inv → s.err = false → s.start % 2 = 0 → s.length % 2 = 0 → s.start + s.length ≤ s.maxAddress →
    (s.crcAddr % 2 = 0 → exec .run s = execAll [.extract, .checksum, .patch] s) ∧
    (s.crcAddr % 2 = 1 → execAll [.extract, .checksum, .patch] s = .next
      { s with buf := s.windowBytes s.start s.length, crc := crc16 (s.windowBytes s.start s.length),
               fill := s.fillAfter s.length, status := (s.status ||| 0x0802) &&& 0xFFFE, reply := .failed })

/-- R185: when the slots lie outside the window, a second `RUN` changes nothing. -/
def Obligations.RunIsIdempotentOutsideTheWindow : Prop :=
  ∀ s t : State, s.Inv → s.err = false → s.start % 2 = 0 → s.length % 2 = 0 → s.start + s.length ≤ s.maxAddress →
    s.crcAddr % 2 = 0 → (s.crcAddr + 1 < s.start ∨ s.start + s.length ≤ s.crcAddr) →
    exec .run s = .next t → exec .run t = .next t
end

