-- ==== Sys2Proof/Laws/Decode.lean ====
section
/-! SUPPORT. Bit strings and the numbers they spell, and the decoders of the fixed fields. -/

namespace Sys2Proof

@[simp] theorem bitsOfNat_length (n v : Nat) : (bitsOfNat n v).length = n := by
  induction n with
  | zero => rfl
  | succ n ih => simp [bitsOfNat, ih]

theorem natOfBits_foldl (bs : List Bool) (k : Nat) :
    bs.foldl (fun n b => 2 * n + b.toNat) k = k * 2 ^ bs.length + natOfBits bs := by
  induction bs generalizing k with
  | nil => simp [natOfBits]
  | cons b bs ih =>
    simp only [natOfBits, List.foldl_cons, List.length_cons]
    rw [ih, ih (2 * 0 + b.toNat)]
    ring

theorem natOfBits_cons (b : Bool) (bs : List Bool) :
    natOfBits (b :: bs) = b.toNat * 2 ^ bs.length + natOfBits bs := by
  rw [natOfBits, List.foldl_cons, natOfBits_foldl]
  simp

/-- The number a bit string spells fits its length. -/
theorem natOfBits_lt (bs : List Bool) : natOfBits bs < 2 ^ bs.length := by
  induction bs with
  | nil => simp [natOfBits]
  | cons b bs ih =>
    rw [natOfBits_cons, List.length_cons, pow_succ]
    have : b.toNat ≤ 1 := Bool.toNat_le b
    nlinarith

/-- The bits of a number spell it back, modulo the width. -/
theorem natOfBits_bitsOfNat (n v : Nat) : natOfBits (bitsOfNat n v) = v % 2 ^ n := by
  induction n with
  | zero => simp [bitsOfNat, natOfBits, Nat.mod_one]
  | succ n ih =>
    rw [bitsOfNat, natOfBits_cons, ih, bitsOfNat_length, Nat.testBit_eq_decide_div_mod_eq, Nat.pow_succ, Nat.mod_mul]
    rcases Nat.mod_two_eq_zero_or_one (v / 2 ^ n) with h | h
    · simp [h]
    · simp [h]; omega

/-- The register index and its name are inverse. -/
@[simp] theorem ofIndex_index (r : Reg) : Reg.ofIndex r.index = r := by cases r <;> rfl

theorem index_lt (r : Reg) : r.index < 16 := by cases r <;> decide

@[simp] theorem headerBits_length (w : Bool) (r : Reg) : (headerBits w r).length = 8 := by
  simp [headerBits]

/-- A written header decodes to what it says (R72). -/
theorem decodeHeader_headerBits (w : Bool) (r : Reg) :
    decodeHeader (BitVec.ofNat 8 (natOfBits (headerBits w r))) = if w then .wr r else .rd r := by
  cases w <;> cases r <;> rfl

/-- A command's word decodes to the command (R75). -/
theorem decodeCommand_word (k : Command) : decodeCommand k.word = some k := by
  cases k with
  | crcByte b =>
    have h : ∀ b : Byte, decodeCommand (Command.crcByte b).word = some (.crcByte b) := by
      decide +kernel
    exact h b
  | _ => rfl

end Sys2Proof
end

