-- ==== Sys2Proof/Laws/State.lean ====
section
/-! SUPPORT. What each update of the state does to each field. -/

namespace Sys2Proof.Machine.State

variable (s : State)

/-! ### withMem -/

@[simp] theorem withMem_par (m : Memory) : (s.withMem m).par = s.par := rfl
@[simp] theorem withMem_mem (m : Memory) : (s.withMem m).mem = m := rfl
@[simp] theorem withMem_maxAddress (m : Memory) : (s.withMem m).maxAddress = s.maxAddress := rfl
@[simp] theorem withMem_fill (m : Memory) : (s.withMem m).fill = s.fill := rfl
@[simp] theorem withMem_start (m : Memory) : (s.withMem m).start = s.start := rfl
@[simp] theorem withMem_length (m : Memory) : (s.withMem m).length = s.length := rfl
@[simp] theorem withMem_crcAddr (m : Memory) : (s.withMem m).crcAddr = s.crcAddr := rfl
@[simp] theorem withMem_buf (m : Memory) : (s.withMem m).buf = s.buf := rfl
@[simp] theorem withMem_bufPtr (m : Memory) : (s.withMem m).bufPtr = s.bufPtr := rfl
@[simp] theorem withMem_crc (m : Memory) : (s.withMem m).crc = s.crc := rfl
@[simp] theorem withMem_status (m : Memory) : (s.withMem m).status = s.status := rfl
@[simp] theorem withMem_events (m : Memory) : (s.withMem m).events = s.events := rfl
@[simp] theorem withMem_reply (m : Memory) : (s.withMem m).reply = s.reply := rfl

/-! ### withFill -/

@[simp] theorem withFill_par (f : Word) : (s.withFill f).par = s.par := rfl
@[simp] theorem withFill_mem (f : Word) : (s.withFill f).mem = s.mem := rfl
@[simp] theorem withFill_maxAddress (f : Word) : (s.withFill f).maxAddress = s.maxAddress := rfl
@[simp] theorem withFill_fill (f : Word) : (s.withFill f).fill = f := rfl
@[simp] theorem withFill_start (f : Word) : (s.withFill f).start = s.start := rfl
@[simp] theorem withFill_length (f : Word) : (s.withFill f).length = s.length := rfl
@[simp] theorem withFill_crcAddr (f : Word) : (s.withFill f).crcAddr = s.crcAddr := rfl
@[simp] theorem withFill_buf (f : Word) : (s.withFill f).buf = s.buf := rfl
@[simp] theorem withFill_bufPtr (f : Word) : (s.withFill f).bufPtr = s.bufPtr := rfl
@[simp] theorem withFill_crc (f : Word) : (s.withFill f).crc = s.crc := rfl
@[simp] theorem withFill_status (f : Word) : (s.withFill f).status = s.status := rfl
@[simp] theorem withFill_events (f : Word) : (s.withFill f).events = s.events := rfl
@[simp] theorem withFill_reply (f : Word) : (s.withFill f).reply = s.reply := rfl

/-! ### withStart -/

@[simp] theorem withStart_par (a : Nat) : (s.withStart a).par = s.par := rfl
@[simp] theorem withStart_mem (a : Nat) : (s.withStart a).mem = s.mem := rfl
@[simp] theorem withStart_maxAddress (a : Nat) : (s.withStart a).maxAddress = s.maxAddress := rfl
@[simp] theorem withStart_fill (a : Nat) : (s.withStart a).fill = s.fill := rfl
@[simp] theorem withStart_start (a : Nat) : (s.withStart a).start = a := rfl
@[simp] theorem withStart_length (a : Nat) : (s.withStart a).length = s.length := rfl
@[simp] theorem withStart_crcAddr (a : Nat) : (s.withStart a).crcAddr = s.crcAddr := rfl
@[simp] theorem withStart_buf (a : Nat) : (s.withStart a).buf = s.buf := rfl
@[simp] theorem withStart_bufPtr (a : Nat) : (s.withStart a).bufPtr = s.bufPtr := rfl
@[simp] theorem withStart_crc (a : Nat) : (s.withStart a).crc = s.crc := rfl
@[simp] theorem withStart_status (a : Nat) : (s.withStart a).status = s.status := rfl
@[simp] theorem withStart_events (a : Nat) : (s.withStart a).events = s.events := rfl
@[simp] theorem withStart_reply (a : Nat) : (s.withStart a).reply = s.reply := rfl

/-! ### withLength -/

@[simp] theorem withLength_par (n : Nat) : (s.withLength n).par = s.par := rfl
@[simp] theorem withLength_mem (n : Nat) : (s.withLength n).mem = s.mem := rfl
@[simp] theorem withLength_maxAddress (n : Nat) : (s.withLength n).maxAddress = s.maxAddress := rfl
@[simp] theorem withLength_fill (n : Nat) : (s.withLength n).fill = s.fill := rfl
@[simp] theorem withLength_start (n : Nat) : (s.withLength n).start = s.start := rfl
@[simp] theorem withLength_length (n : Nat) : (s.withLength n).length = n := rfl
@[simp] theorem withLength_crcAddr (n : Nat) : (s.withLength n).crcAddr = s.crcAddr := rfl
@[simp] theorem withLength_buf (n : Nat) : (s.withLength n).buf = s.buf := rfl
@[simp] theorem withLength_bufPtr (n : Nat) : (s.withLength n).bufPtr = s.bufPtr := rfl
@[simp] theorem withLength_crc (n : Nat) : (s.withLength n).crc = s.crc := rfl
@[simp] theorem withLength_status (n : Nat) : (s.withLength n).status = s.status := rfl
@[simp] theorem withLength_events (n : Nat) : (s.withLength n).events = s.events := rfl
@[simp] theorem withLength_reply (n : Nat) : (s.withLength n).reply = s.reply := rfl

/-! ### withCrcAddr -/

@[simp] theorem withCrcAddr_par (a : Nat) : (s.withCrcAddr a).par = s.par := rfl
@[simp] theorem withCrcAddr_mem (a : Nat) : (s.withCrcAddr a).mem = s.mem := rfl
@[simp] theorem withCrcAddr_maxAddress (a : Nat) : (s.withCrcAddr a).maxAddress = s.maxAddress := rfl
@[simp] theorem withCrcAddr_fill (a : Nat) : (s.withCrcAddr a).fill = s.fill := rfl
@[simp] theorem withCrcAddr_start (a : Nat) : (s.withCrcAddr a).start = s.start := rfl
@[simp] theorem withCrcAddr_length (a : Nat) : (s.withCrcAddr a).length = s.length := rfl
@[simp] theorem withCrcAddr_crcAddr (a : Nat) : (s.withCrcAddr a).crcAddr = a := rfl
@[simp] theorem withCrcAddr_buf (a : Nat) : (s.withCrcAddr a).buf = s.buf := rfl
@[simp] theorem withCrcAddr_bufPtr (a : Nat) : (s.withCrcAddr a).bufPtr = s.bufPtr := rfl
@[simp] theorem withCrcAddr_crc (a : Nat) : (s.withCrcAddr a).crc = s.crc := rfl
@[simp] theorem withCrcAddr_status (a : Nat) : (s.withCrcAddr a).status = s.status := rfl
@[simp] theorem withCrcAddr_events (a : Nat) : (s.withCrcAddr a).events = s.events := rfl
@[simp] theorem withCrcAddr_reply (a : Nat) : (s.withCrcAddr a).reply = s.reply := rfl

/-! ### withBuf -/

@[simp] theorem withBuf_par (b : List Byte) : (s.withBuf b).par = s.par := rfl
@[simp] theorem withBuf_mem (b : List Byte) : (s.withBuf b).mem = s.mem := rfl
@[simp] theorem withBuf_maxAddress (b : List Byte) : (s.withBuf b).maxAddress = s.maxAddress := rfl
@[simp] theorem withBuf_fill (b : List Byte) : (s.withBuf b).fill = s.fill := rfl
@[simp] theorem withBuf_start (b : List Byte) : (s.withBuf b).start = s.start := rfl
@[simp] theorem withBuf_length (b : List Byte) : (s.withBuf b).length = s.length := rfl
@[simp] theorem withBuf_crcAddr (b : List Byte) : (s.withBuf b).crcAddr = s.crcAddr := rfl
@[simp] theorem withBuf_buf (b : List Byte) : (s.withBuf b).buf = b := rfl
@[simp] theorem withBuf_bufPtr (b : List Byte) : (s.withBuf b).bufPtr = s.bufPtr := rfl
@[simp] theorem withBuf_crc (b : List Byte) : (s.withBuf b).crc = s.crc := rfl
@[simp] theorem withBuf_status (b : List Byte) : (s.withBuf b).status = s.status := rfl
@[simp] theorem withBuf_events (b : List Byte) : (s.withBuf b).events = s.events := rfl
@[simp] theorem withBuf_reply (b : List Byte) : (s.withBuf b).reply = s.reply := rfl

/-! ### withBufPtr -/

@[simp] theorem withBufPtr_par (p : Nat) : (s.withBufPtr p).par = s.par := rfl
@[simp] theorem withBufPtr_mem (p : Nat) : (s.withBufPtr p).mem = s.mem := rfl
@[simp] theorem withBufPtr_maxAddress (p : Nat) : (s.withBufPtr p).maxAddress = s.maxAddress := rfl
@[simp] theorem withBufPtr_fill (p : Nat) : (s.withBufPtr p).fill = s.fill := rfl
@[simp] theorem withBufPtr_start (p : Nat) : (s.withBufPtr p).start = s.start := rfl
@[simp] theorem withBufPtr_length (p : Nat) : (s.withBufPtr p).length = s.length := rfl
@[simp] theorem withBufPtr_crcAddr (p : Nat) : (s.withBufPtr p).crcAddr = s.crcAddr := rfl
@[simp] theorem withBufPtr_buf (p : Nat) : (s.withBufPtr p).buf = s.buf := rfl
@[simp] theorem withBufPtr_bufPtr (p : Nat) : (s.withBufPtr p).bufPtr = p := rfl
@[simp] theorem withBufPtr_crc (p : Nat) : (s.withBufPtr p).crc = s.crc := rfl
@[simp] theorem withBufPtr_status (p : Nat) : (s.withBufPtr p).status = s.status := rfl
@[simp] theorem withBufPtr_events (p : Nat) : (s.withBufPtr p).events = s.events := rfl
@[simp] theorem withBufPtr_reply (p : Nat) : (s.withBufPtr p).reply = s.reply := rfl

/-! ### withCrc -/

@[simp] theorem withCrc_par (c : Word) : (s.withCrc c).par = s.par := rfl
@[simp] theorem withCrc_mem (c : Word) : (s.withCrc c).mem = s.mem := rfl
@[simp] theorem withCrc_maxAddress (c : Word) : (s.withCrc c).maxAddress = s.maxAddress := rfl
@[simp] theorem withCrc_fill (c : Word) : (s.withCrc c).fill = s.fill := rfl
@[simp] theorem withCrc_start (c : Word) : (s.withCrc c).start = s.start := rfl
@[simp] theorem withCrc_length (c : Word) : (s.withCrc c).length = s.length := rfl
@[simp] theorem withCrc_crcAddr (c : Word) : (s.withCrc c).crcAddr = s.crcAddr := rfl
@[simp] theorem withCrc_buf (c : Word) : (s.withCrc c).buf = s.buf := rfl
@[simp] theorem withCrc_bufPtr (c : Word) : (s.withCrc c).bufPtr = s.bufPtr := rfl
@[simp] theorem withCrc_crc (c : Word) : (s.withCrc c).crc = c := rfl
@[simp] theorem withCrc_status (c : Word) : (s.withCrc c).status = s.status := rfl
@[simp] theorem withCrc_events (c : Word) : (s.withCrc c).events = s.events := rfl
@[simp] theorem withCrc_reply (c : Word) : (s.withCrc c).reply = s.reply := rfl

/-! ### withStatus -/

@[simp] theorem withStatus_par (w : Word) : (s.withStatus w).par = s.par := rfl
@[simp] theorem withStatus_mem (w : Word) : (s.withStatus w).mem = s.mem := rfl
@[simp] theorem withStatus_maxAddress (w : Word) : (s.withStatus w).maxAddress = s.maxAddress := rfl
@[simp] theorem withStatus_fill (w : Word) : (s.withStatus w).fill = s.fill := rfl
@[simp] theorem withStatus_start (w : Word) : (s.withStatus w).start = s.start := rfl
@[simp] theorem withStatus_length (w : Word) : (s.withStatus w).length = s.length := rfl
@[simp] theorem withStatus_crcAddr (w : Word) : (s.withStatus w).crcAddr = s.crcAddr := rfl
@[simp] theorem withStatus_buf (w : Word) : (s.withStatus w).buf = s.buf := rfl
@[simp] theorem withStatus_bufPtr (w : Word) : (s.withStatus w).bufPtr = s.bufPtr := rfl
@[simp] theorem withStatus_crc (w : Word) : (s.withStatus w).crc = s.crc := rfl
@[simp] theorem withStatus_status (w : Word) : (s.withStatus w).status = w := rfl
@[simp] theorem withStatus_events (w : Word) : (s.withStatus w).events = s.events := rfl
@[simp] theorem withStatus_reply (w : Word) : (s.withStatus w).reply = s.reply := rfl

/-! ### withEvents -/

@[simp] theorem withEvents_par (es : List HostEvent) : (s.withEvents es).par = s.par := rfl
@[simp] theorem withEvents_mem (es : List HostEvent) : (s.withEvents es).mem = s.mem := rfl
@[simp] theorem withEvents_maxAddress (es : List HostEvent) : (s.withEvents es).maxAddress = s.maxAddress := rfl
@[simp] theorem withEvents_fill (es : List HostEvent) : (s.withEvents es).fill = s.fill := rfl
@[simp] theorem withEvents_start (es : List HostEvent) : (s.withEvents es).start = s.start := rfl
@[simp] theorem withEvents_length (es : List HostEvent) : (s.withEvents es).length = s.length := rfl
@[simp] theorem withEvents_crcAddr (es : List HostEvent) : (s.withEvents es).crcAddr = s.crcAddr := rfl
@[simp] theorem withEvents_buf (es : List HostEvent) : (s.withEvents es).buf = s.buf := rfl
@[simp] theorem withEvents_bufPtr (es : List HostEvent) : (s.withEvents es).bufPtr = s.bufPtr := rfl
@[simp] theorem withEvents_crc (es : List HostEvent) : (s.withEvents es).crc = s.crc := rfl
@[simp] theorem withEvents_status (es : List HostEvent) : (s.withEvents es).status = s.status := rfl
@[simp] theorem withEvents_events (es : List HostEvent) : (s.withEvents es).events = es := rfl
@[simp] theorem withEvents_reply (es : List HostEvent) : (s.withEvents es).reply = s.reply := rfl

/-! ### withReply -/

@[simp] theorem withReply_par (r : Reply) : (s.withReply r).par = s.par := rfl
@[simp] theorem withReply_mem (r : Reply) : (s.withReply r).mem = s.mem := rfl
@[simp] theorem withReply_maxAddress (r : Reply) : (s.withReply r).maxAddress = s.maxAddress := rfl
@[simp] theorem withReply_fill (r : Reply) : (s.withReply r).fill = s.fill := rfl
@[simp] theorem withReply_start (r : Reply) : (s.withReply r).start = s.start := rfl
@[simp] theorem withReply_length (r : Reply) : (s.withReply r).length = s.length := rfl
@[simp] theorem withReply_crcAddr (r : Reply) : (s.withReply r).crcAddr = s.crcAddr := rfl
@[simp] theorem withReply_buf (r : Reply) : (s.withReply r).buf = s.buf := rfl
@[simp] theorem withReply_bufPtr (r : Reply) : (s.withReply r).bufPtr = s.bufPtr := rfl
@[simp] theorem withReply_crc (r : Reply) : (s.withReply r).crc = s.crc := rfl
@[simp] theorem withReply_status (r : Reply) : (s.withReply r).status = s.status := rfl
@[simp] theorem withReply_events (r : Reply) : (s.withReply r).events = s.events := rfl
@[simp] theorem withReply_reply (r : Reply) : (s.withReply r).reply = r := rfl

end Sys2Proof.Machine.State
end

