-- ==== Sys2Proof/Laws/Memory.lean ====
section
/-! SUPPORT. The image as a partial map: a read after a write, and the canonical form, which every memory operation
keeps (20_memory.md R51 to R53). -/

namespace Sys2Proof.Machine

namespace Memory

@[simp] theorem lookup_nil (a : Nat) : lookup [] a = none := rfl

theorem lookup_cons (p : Nat × Word) (m : Memory) (a : Nat) :
    lookup (p :: m) a = if a = p.1 then some p.2 else lookup m a := rfl

/-- What a store does to every address (R53). -/
theorem lookup_store (m : Memory) (a b : Nat) (v : Word) :
    lookup (store m a v) b = if b = a then some v else lookup m b := by
  induction m with
  | nil => rfl
  | cons p m ih =>
    obtain ⟨c, w⟩ := p
    simp only [store]
    split
    · simp only [lookup_cons]
    · split
      · subst_vars
        simp only [lookup_cons]
        split <;> rfl
      · simp only [lookup_cons, ih]
        by_cases hb : b = c
        · subst hb
          simp [Ne.symm ‹¬a = b›]
        · simp [hb]

theorem risingFrom_store (m : Memory) (lo a : Nat) (v : Word) (h : risingFrom lo m = true) (ha : lo ≤ a) :
    risingFrom lo (store m a v) = true := by
  induction m generalizing lo with
  | nil => simp [store, risingFrom, ha]
  | cons p m ih =>
    obtain ⟨c, w⟩ := p
    simp only [risingFrom, Bool.and_eq_true, decide_eq_true_eq] at h
    simp only [store]
    split
    · simp only [risingFrom, Bool.and_eq_true, decide_eq_true_eq]
      exact ⟨ha, by omega, h.2⟩
    · split
      · subst_vars
        simpa [risingFrom, ha] using h.2
      · simp only [risingFrom, Bool.and_eq_true, decide_eq_true_eq]
        exact ⟨h.1, ih _ h.2 (by omega)⟩

theorem all_store (m : Memory) (a : Nat) (v : Word) (P : Nat × Word → Bool) (h : m.all P = true)
    (hv : P (a, v) = true) : (store m a v).all P = true := by
  induction m with
  | nil => simp [store, hv]
  | cons p m ih =>
    obtain ⟨c, w⟩ := p
    simp only [List.all_cons, Bool.and_eq_true] at h
    simp only [store]
    split
    · simp [hv, h.1, h.2]
    · split
      · simp [hv, h.2]
      · simp [h.1, ih h.2]

/-- A store inside the address space keeps the canonical form. -/
theorem wf_store (aw : Nat) (m : Memory) (a : Nat) (v : Word) (h : wf aw m = true) (ha : a < 2 ^ aw) :
    wf aw (store m a v) = true := by
  simp only [wf, Bool.and_eq_true] at h ⊢
  exact ⟨risingFrom_store m 0 a v h.1 (Nat.zero_le a), all_store m a v _ h.2 (by simpa using ha)⟩

theorem wf_foldl_store (aw : Nat) (ws : List (Nat × Word)) (m : Memory) (h : wf aw m = true)
    (hws : ∀ p ∈ ws, p.1 < 2 ^ aw) : wf aw (ws.foldl (fun m p => store m p.1 p.2) m) = true := by
  induction ws generalizing m with
  | nil => exact h
  | cons p ws ih =>
    exact ih _ (wf_store aw m p.1 p.2 h (hws p (by simp))) fun q hq => hws q (by simp [hq])

/-- A loaded image is canonical. -/
theorem wf_ofWords (aw : Nat) (ws : List (Nat × Word)) (hws : ∀ p ∈ ws, p.1 < 2 ^ aw) :
    wf aw (ofWords ws) = true :=
  wf_foldl_store aw ws [] rfl hws

theorem lookup_none_of_risingFrom (m : Memory) (lo a : Nat) (h : risingFrom lo m = true) (ha : a < lo) :
    lookup m a = none := by
  induction m generalizing lo with
  | nil => rfl
  | cons p m ih =>
    obtain ⟨c, w⟩ := p
    simp only [risingFrom, Bool.and_eq_true, decide_eq_true_eq] at h
    rw [lookup_cons, if_neg (by simp only; omega)]
    exact ih _ h.2 (by omega)

/-- Two canonical images that read alike are the same image. -/
theorem eq_of_lookup_eq (m n : Memory) (lo : Nat) (hm : risingFrom lo m = true) (hn : risingFrom lo n = true)
    (h : ∀ a, lookup m a = lookup n a) : m = n := by
  induction m generalizing lo n with
  | nil =>
    cases n with
    | nil => rfl
    | cons q n => simpa [lookup_cons] using h q.1
  | cons p m ih =>
    obtain ⟨c, w⟩ := p
    cases n with
    | nil => simpa [lookup_cons] using h c
    | cons q n =>
      obtain ⟨d, x⟩ := q
      simp only [risingFrom, Bool.and_eq_true, decide_eq_true_eq] at hm hn
      have hcd : c = d := by
        rcases Nat.lt_trichotomy c d with hlt | heq | hgt
        · have hc := h c
          rw [lookup_cons, lookup_cons, if_pos rfl, if_neg (by simp only; omega),
            lookup_none_of_risingFrom n _ c hn.2 (by omega)] at hc
          exact absurd hc (by simp)
        · exact heq
        · have hd := h d
          rw [lookup_cons, lookup_cons, if_neg (by simp only; omega), if_pos rfl,
            lookup_none_of_risingFrom m _ d hm.2 (by omega)] at hd
          exact absurd hd (by simp)
      subst hcd
      have hw := h c
      simp only [lookup_cons, if_true, Option.some.injEq] at hw
      subst hw
      congr 1
      refine ih n (c + 1) hm.2 hn.2 fun a => ?_
      by_cases hac : a = c
      · subst hac
        rw [lookup_none_of_risingFrom m _ a hm.2 (by omega), lookup_none_of_risingFrom n _ a hn.2 (by omega)]
      · simpa [lookup_cons, hac] using h a

end Memory

namespace State

variable (s : State)

/-- Everything `ImgWrite` can do (R53). -/
theorem imgWrite_lookup (a b : Nat) (v : Word) :
    Memory.lookup (s.imgWrite a v).mem b = if b = a then some v else Memory.lookup s.mem b :=
  Memory.lookup_store s.mem a b v

theorem readFb_congr {t : State} (a : Nat) (f : Word) (h : Memory.lookup s.mem a = Memory.lookup t.mem a) :
    s.readFb a f = t.readFb a f := by
  rw [readFb, readFb, h]

/-- The memory that `State.reset` starts from is canonical. -/
theorem reset_mem_wf (aw : Nat) : Memory.wf aw State.reset.mem = true := rfl

end State

end Sys2Proof.Machine
end

