-- ==== Sys2Proof/Laws/Extract.lean ====
section
/-! SUPPORT. Everything the extraction loop does: its bytes read with the fill as an argument (41_reorder.md R104,
second form), and the one field of the state it writes (R106). -/

namespace Sys2Proof.Machine.State

variable (s : State)

/-- The group of one pair, read with the fill as an argument (R104, second form). -/
def pairGroup (a : Nat) : List Byte :=
  [lowByte (s.readFb (a + 1) fillLo), highByte (s.readFb a fillHi), lowByte (s.readFb a fillLo)]

/-- The groups of `n` pairs, read with the fill as an argument. -/
def pairGroups : (n a : Nat) → List Byte
  | 0, _ => []
  | n + 1, a => s.pairGroup a ++ pairGroups n (a + 2)

@[simp] theorem readFb_withFill (f g : Word) (a : Nat) : (s.withFill f).readFb a g = s.readFb a g := rfl

theorem extractPair_eq (a : Nat) : s.extractPair a = (s.withFill fillLo, s.pairGroup a) := rfl

theorem pairGroups_withFill (f : Word) (n a : Nat) : (s.withFill f).pairGroups n a = s.pairGroups n a := by
  induction n generalizing a with
  | zero => rfl
  | succ n ih => simp only [pairGroups, ih]; rfl

/-- The loop leaves the fill at `0x00FF` once a pair was read, and changes nothing else. -/
theorem extractPairs_eq (n a : Nat) :
    extractPairs n a s = (if n = 0 then s else s.withFill fillLo, s.pairGroups n a) := by
  induction n generalizing a s with
  | zero => rfl
  | succ n ih =>
    simp only [extractPairs, extractPair_eq, ih, pairGroups_withFill, pairGroups, Nat.succ_ne_zero, if_false]
    congr 1
    split <;> rfl

theorem extract_eq (base len : Nat) :
    s.extract base len =
      (if len / 2 = 0 then s else s.withFill fillLo, s.pairGroups (len / 2) base) :=
  extractPairs_eq s (len / 2) base

theorem pairGroups_length (n a : Nat) : (s.pairGroups n a).length = 3 * n := by
  induction n generalizing a with
  | zero => rfl
  | succ n ih => simp only [pairGroups, pairGroup, List.length_append, ih, List.length_cons, List.length_nil]; omega

end Sys2Proof.Machine.State
end

