-- ==== Sys2Proof/Laws/Ops.lean ====
section
/-! SUPPORT. For each shared operation, once, everything it can do. -/

namespace Sys2Proof.Machine

namespace State

variable (s : State)

/-- A write is refused in the error state, and otherwise is what it is (R92, R168). -/
theorem asWrite_cases (k : Unit → Result) :
    (s.err = true ∧ s.asWrite k = .next { s with reply := .refused }) ∨ (s.err = false ∧ s.asWrite k = k ()) := by
  cases h : s.err <;> simp [asWrite, h, refuse, withReply]

theorem asWrite_of_err (k : Unit → Result) (h : s.err = true) : s.asWrite k = .next { s with reply := .refused } := by
  simp [asWrite, h, refuse, withReply]

theorem asWrite_of_ok (k : Unit → Result) (h : s.err = false) : s.asWrite k = k () := by
  simp [asWrite, h]

/-- Checks fail the command with what they found, or let it go on (R166, R167). -/
theorem checked_cases (V : List Cause) (k : Unit → Result) :
    (V ≠ [] ∧ s.checked V k = .next (s.fail V)) ∨ (V = [] ∧ s.checked V k = k ()) := by
  cases V <;> simp [checked]

theorem checked_of_ne (V : List Cause) (k : Unit → Result) (hV : V ≠ []) : s.checked V k = .next (s.fail V) :=
  ((s.checked_cases V k).resolve_right fun c => hV c.1).2

@[simp] theorem checked_nil (k : Unit → Result) : s.checked [] k = k () := rfl

theorem withinSpace_of_le (base n : Nat) (k : Unit → Result) (h : base + n ≤ 2 ^ s.par.aw) :
    s.withinSpace base n k = k () := if_pos h

/-- What failing leaves (R166): only `STATUS` and the model's record of the outcome are written. -/
theorem fail_eq (V : List Cause) :
    s.fail V = { s with status := Status.raise V s.status, reply := .failed } := rfl

theorem completeCommand_eq :
    s.completeCommand = { s with status := s.status ||| 0x0001, reply := .completed } := rfl

theorem complete_eq : s.complete = { s with reply := .completed } := rfl

theorem refuse_eq : s.refuse = { s with reply := .refused } := rfl

theorem consume_eq (n : Nat) : s.consume n = { s with events := s.events.drop n } := rfl

/-- A read fails exactly at the registers the host may not read (R29, R91). -/
theorem regRead_eq_none (r : Reg) : s.regRead r = none ↔ r.readable = false := by
  cases r <;> simp [regRead, Reg.readable]

/-- A write to another register than `CMD` fails exactly where the host may not write it or the value does not fit
(R29, R90). -/
theorem regWrite_eq_none (r : Reg) (v : Nat) (hr : r ≠ .cmd) :
    s.regWrite r v = none ↔ r.writable = false ∨ 2 ^ r.width s.par.aw ≤ v := by
  cases r <;> simp [regWrite, Reg.writable] at hr ⊢

theorem patchValue_eq : s.patchValue = s.crc.toNat := by
  simp only [patchValue, BitVec.toNat_setWidth]
  have := s.crc.isLt
  omega

end State

namespace Status

theorem mask_bit (e : Cause) (b : Nat) : e.mask.getLsbD b = (e.bit == b) := by
  by_cases hb : b < 16
  · have h : ∀ b : Fin 16, e.mask.getLsbD b = (e.bit == b) := by cases e <;> decide
    exact h ⟨b, hb⟩
  · rw [BitVec.getLsbD_of_ge _ b (by omega)]
    cases e <;> simp only [Cause.bit] <;> exact (beq_false_of_ne (by omega)).symm

/-- Every bit of a cause set (R160 to R165). -/
theorem causeMask_bit (V : List Cause) (b : Nat) :
    (causeMask V).getLsbD b = V.any (fun e => e.bit == b) := by
  induction V with
  | nil => simp [causeMask]
  | cons e V ih =>
    rw [List.any_cons, ← ih, ← mask_bit]
    simp [causeMask]

/-- Every bit of `STATUS` after a failure (R166). -/
theorem raise_bit (V : List Cause) (w : Word) (b : Nat) :
    (raise V w).getLsbD b =
      if b = 0 then false
      else if b = 1 then true
      else w.getLsbD b || V.any (fun e => e.bit == b) := by
  have hz : (raise V w).getLsbD b =
      (((w.getLsbD b || V.any (fun e => e.bit == b)) || (0x0002#16).getLsbD b) && (0xFFFE#16).getLsbD b) := by
    rw [← causeMask_bit]
    simp only [raise, BitVec.getLsbD_and, BitVec.getLsbD_or]
    rfl
  rw [hz]
  by_cases hb : b < 16
  · have h2 : ∀ b : Fin 16, (0x0002#16).getLsbD b = decide (b.val = 1) ∧
        (0xFFFE#16).getLsbD b = decide (b.val ≠ 0) := by decide
    rw [(h2 ⟨b, hb⟩).1, (h2 ⟨b, hb⟩).2]
    by_cases h0 : b = 0 <;> by_cases h1 : b = 1 <;> simp [h0, h1]
  · have hV : V.any (fun e => e.bit == b) = false := by
      rw [← causeMask_bit]
      exact BitVec.getLsbD_of_ge _ b (by omega)
    rw [hV, BitVec.getLsbD_of_ge w b (by omega), BitVec.getLsbD_of_ge (0xFFFE#16) b (by omega),
      if_neg (by omega), if_neg (by omega)]
    simp

/-- `E_ILLEGAL` as numbers. -/
theorem raise_illegal (w : Word) : raise [.illegal] w = (w ||| 0x2002) &&& 0xFFFE := by
  simp only [raise, BitVec.or_assoc]
  rfl

end Status

/-- The constraints of the window, one by one (R101). -/
theorem mem_checkWindow (s : State) (base len : Nat) (e : Cause) :
    e ∈ s.checkWindow base len ↔
      (e = .startOdd ∧ base % 2 = 1) ∨ (e = .lenOdd ∧ len % 2 = 1) ∨ (e = .range ∧ s.maxAddress < base + len) := by
  simp only [State.checkWindow, violated, List.mem_append, beq_iff_eq, decide_eq_true_eq]
  split <;> split <;> split <;> simp [*, or_assoc]

/-- A window with no violated constraint (R101). -/
theorem checkWindow_eq_nil (s : State) (base len : Nat) :
    s.checkWindow base len = [] ↔ base % 2 = 0 ∧ len % 2 = 0 ∧ base + len ≤ s.maxAddress := by
  simp only [State.checkWindow, violated, List.append_eq_nil_iff, beq_iff_eq, decide_eq_true_eq]
  constructor
  · rintro ⟨⟨h₁, h₂⟩, h₃⟩
    refine ⟨?_, ?_, ?_⟩
    · by_contra h; simp [show base % 2 = 1 by omega] at h₁
    · by_contra h; simp [show len % 2 = 1 by omega] at h₂
    · by_contra h; simp [show s.maxAddress < base + len by omega] at h₃
  · rintro ⟨h₁, h₂, h₃⟩
    simp [h₁, h₂, h₃]

theorem checkCrcAddr_eq_nil (A : Nat) : checkCrcAddr A = [] ↔ A % 2 = 0 := by
  simp only [checkCrcAddr, violated, beq_iff_eq]
  split <;> simp <;> omega

/-- The guard lets every 16-bit value through (R142). -/
theorem checkResult_of_lt (R : Nat) (h : R < 2 ^ 16) : checkResult R = [] := by
  have hR : decide (patchGuard ≤ R) = false := decide_eq_false (by unfold patchGuard; omega)
  rw [checkResult, hR]
  rfl

end Sys2Proof.Machine
end

