-- ==== Sys2Proof/Laws/Exec.lean ====
section
/-! SUPPORT. What an instruction can do, said once: the effect of each command, and the inversion of `exec`. -/

namespace Sys2Proof.Machine

namespace State

variable (s : State)

/-- What a completed extraction leaves beside its bytes (41_reorder.md R106). -/
def extracted (len : Nat) : State := if len / 2 = 0 then s else s.withFill fillLo

/-- The state a command completes in, given that its checks passed. -/
def commandEffect : Command → State
  | .extract => ((s.extracted s.length).withBuf (s.pairGroups (s.length / 2) s.start)).completeCommand
  | .checksum => (s.withCrc (crc16 s.buf)).completeCommand
  | .patch => (s.patch s.crcAddr s.patchValue).completeCommand
  | .run =>
    let bytes := s.pairGroups (s.length / 2) s.start
    let t := ((s.extracted s.length).withBuf bytes).withCrc (crc16 bytes)
    (t.patch s.crcAddr t.patchValue).completeCommand
  | .crcInit => (s.withCrc crcStart).completeCommand
  | .crcByte b => (s.withCrc (Machine.crcByte s.crc b)).completeCommand

/-- A completed command reports that it completed, and sets `DONE` (R23). -/
theorem commandEffect_reply (k : Command) : (s.commandEffect k).reply = .completed := by cases k <;> rfl

/-- The constraints a command checks first. -/
def commandChecks : Command → List Cause
  | .extract => s.checkWindow s.start s.length
  | .patch => checkPatch s.crcAddr s.patchValue
  | .run => s.checkRun s.start s.length s.crcAddr
  | _ => []

/-- Whether every image slot a command can reach exists. -/
def commandInSpace : Command → Prop
  | .extract => s.start + s.length ≤ 2 ^ s.par.aw
  | .patch => s.crcAddr + 2 ≤ 2 ^ s.par.aw
  | .run => s.start + s.length ≤ 2 ^ s.par.aw ∧ s.crcAddr + 2 ≤ 2 ^ s.par.aw
  | _ => True

@[simp] theorem extracted_crcAddr (n : Nat) : (s.extracted n).crcAddr = s.crcAddr := by
  unfold extracted; split <;> rfl

@[simp] theorem extracted_par (n : Nat) : (s.extracted n).par = s.par := by
  unfold extracted; split <;> rfl

@[simp] theorem extracted_status (n : Nat) : (s.extracted n).status = s.status := by
  unfold extracted; split <;> rfl

@[simp] theorem extracted_mem (n : Nat) : (s.extracted n).mem = s.mem := by
  unfold extracted; split <;> rfl

theorem extract_eq_extracted (base len : Nat) :
    s.extract base len = (s.extracted len, s.pairGroups (len / 2) base) := extract_eq s base len

theorem patchValue_lt : s.patchValue < 2 ^ 16 := by
  rw [patchValue_eq]; exact s.crc.isLt

end State

/-- In the error state a command is refused. -/
theorem execCommand_of_err (k : Command) (s : State) (h : s.err = true) :
    execCommand k s = .next { s with reply := .refused } := by
  cases k <;>
    simp only [execCommand, execExtract, execChecksum, execPatch, execRun, execCrcInit, execCrcByte,
      State.asWrite_of_err s _ h]

/-- A command whose checks find something fails with what they found. -/
theorem execCommand_of_checks (k : Command) (s : State) (h : s.err = false) (hV : s.commandChecks k ≠ []) :
    execCommand k s = .next (s.fail (s.commandChecks k)) := by
  cases k with
  | extract =>
    simp only [State.commandChecks] at hV ⊢
    simp only [execCommand, execExtract, State.asWrite_of_ok s _ h, State.checked_of_ne s _ _ hV]
  | patch =>
    simp only [State.commandChecks] at hV ⊢
    simp only [execCommand, execPatch, State.asWrite_of_ok s _ h, State.checked_of_ne s _ _ hV]
  | run =>
    simp only [State.commandChecks] at hV ⊢
    simp only [execCommand, execRun, State.asWrite_of_ok s _ h, State.checked_of_ne s _ _ hV]
  | checksum => exact absurd rfl hV
  | crcInit => exact absurd rfl hV
  | crcByte b => exact absurd rfl hV

/-- A command whose checks find nothing, and whose slots exist, completes with its effect. -/
theorem execCommand_of_ok (k : Command) (s : State) (h : s.err = false) (hV : s.commandChecks k = [])
    (hs : s.commandInSpace k) : execCommand k s = .next (s.commandEffect k) := by
  cases k with
  | extract =>
    simp only [State.commandChecks] at hV
    simp only [execCommand, execExtract, State.asWrite_of_ok s _ h, hV, State.checked_nil,
      State.withinSpace_of_le s _ _ _ hs, State.extract_eq_extracted]
    rfl
  | patch =>
    simp only [State.commandChecks] at hV
    simp only [execCommand, execPatch, State.asWrite_of_ok s _ h, hV, State.checked_nil,
      State.withinSpace_of_le s _ _ _ hs]
    rfl
  | run =>
    simp only [State.commandChecks] at hV
    simp only [execCommand, execRun, State.asWrite_of_ok s _ h, hV, State.checked_nil,
      State.withinSpace_of_le s _ _ _ hs.1, State.withinSpace_of_le s _ _ _ hs.2, State.extract_eq_extracted,
      checkResult_of_lt _ (State.patchValue_lt _)]
    simp [State.commandEffect]
  | checksum => simp only [execCommand, execChecksum, State.asWrite_of_ok s _ h, State.commandEffect]
  | crcInit => simp only [execCommand, execCrcInit, State.asWrite_of_ok s _ h, State.commandEffect]
  | crcByte b => simp only [execCommand, execCrcByte, State.asWrite_of_ok s _ h, State.commandEffect]

/-- A command whose slots do not all exist faults (entry 12). -/
theorem execCommand_of_outside (k : Command) (s : State) (h : s.err = false) (hV : s.commandChecks k = [])
    (hs : ¬s.commandInSpace k) : execCommand k s = .fault .addressOutsideSpace := by
  cases k with
  | extract =>
    simp only [State.commandChecks] at hV
    simp only [State.commandInSpace] at hs
    simp only [execCommand, execExtract, State.asWrite_of_ok s _ h, hV, State.checked_nil, State.withinSpace,
      if_neg hs]
  | patch =>
    simp only [State.commandChecks] at hV
    simp only [State.commandInSpace] at hs
    simp only [execCommand, execPatch, State.asWrite_of_ok s _ h, hV, State.checked_nil, State.withinSpace,
      if_neg hs]
  | run =>
    simp only [State.commandChecks] at hV
    simp only [State.commandInSpace, not_and] at hs
    simp only [execCommand, execRun, State.asWrite_of_ok s _ h, hV, State.checked_nil, State.withinSpace]
    split
    · rw [if_neg (hs ‹_›)]
    · rfl
  | checksum => exact absurd trivial hs
  | crcInit => exact absurd trivial hs
  | crcByte b => exact absurd trivial hs

/-- Everything a command can do when it goes on. -/
theorem execCommand_cases (k : Command) (s t : State) (h : execCommand k s = .next t) :
    (s.err = true ∧ t = { s with reply := .refused }) ∨
    (s.err = false ∧ s.commandChecks k ≠ [] ∧ t = s.fail (s.commandChecks k)) ∨
    (s.err = false ∧ s.commandChecks k = [] ∧ s.commandInSpace k ∧ t = s.commandEffect k) := by
  cases he : s.err
  · by_cases hV : s.commandChecks k = []
    · by_cases hs : s.commandInSpace k
      · rw [execCommand_of_ok k s he hV hs] at h
        exact .inr (.inr ⟨rfl, hV, hs, (Host.Outcome.next.inj h).symm⟩)
      · rw [execCommand_of_outside k s he hV hs] at h
        cases h
    · rw [execCommand_of_checks k s he hV] at h
      exact .inr (.inl ⟨rfl, hV, (Host.Outcome.next.inj h).symm⟩)
  · rw [execCommand_of_err k s he] at h
    exact .inl ⟨rfl, (Host.Outcome.next.inj h).symm⟩

/-- A command's own instruction runs it. -/
theorem exec_toInstr (k : Command) (s : State) : exec k.toInstr s = execCommand k s := by
  cases k <;> rfl

/-- The instructions that issue the command `k`: its own, and its word written to `CMD`. -/
def issues (i : Instr) (k : Command) : Prop :=
  i = k.toInstr ∨ ∃ v, i = .wr .cmd v ∧ commandOf v = some k

/-- A write, with its two cases as a condition (R90). -/
theorem execWr_eq (r : Reg) (v : Nat) (s : State) :
    execWr r v s = s.asWrite fun _ => if r = .cmd then writeCmd v s else writeReg r v s := by
  cases r <;> rfl

/-- A write that stores its value (R90). -/
theorem execWr_of_regWrite (r : Reg) (v : Nat) (s s' : State) (h : s.err = false) (hr : s.regWrite r v = some s') :
    execWr r v s = .next s'.complete := by
  have hc : r ≠ .cmd := by
    rintro rfl
    simp only [State.regWrite] at hr
    split at hr <;> cases hr
  rw [execWr_eq, State.asWrite_of_ok s _ h, if_neg hc, writeReg, hr]

/-- A write that fails in a state outside the error state (R90). -/
def illegalWrite (s : State) (r : Reg) (v : Nat) : Prop :=
  if r = .cmd then commandOf v = none else s.regWrite r v = none

/-- Everything an instruction can do when it goes on: it is refused, it fails, it reads a register, it stores in a
register, or it completes a command. -/
def GoesOnTo (i : Instr) (s t : State) : Prop :=
  (s.err = true ∧ (∀ r, i ≠ .rd r) ∧ t = { s with reply := .refused }) ∨
  (∃ V, V ≠ [] ∧ t = s.fail V ∧
    ((∃ r, i = .rd r ∧ s.regRead r = none ∧ V = [.illegal]) ∨
      (s.err = false ∧ ∃ r v, i = .wr r v ∧ illegalWrite s r v ∧ V = [.illegal]) ∨
      (s.err = false ∧ ∃ k, issues i k ∧ V = s.commandChecks k))) ∨
  (∃ r v, i = .rd r ∧ s.regRead r = some v ∧ t = { s with reply := .value v }) ∨
  (s.err = false ∧ ∃ r v s', i = .wr r v ∧ s.regWrite r v = some s' ∧ t = s'.complete) ∨
  (s.err = false ∧ ∃ k, issues i k ∧ s.commandChecks k = [] ∧ s.commandInSpace k ∧ t = s.commandEffect k)

theorem goesOnTo_of_command (i : Instr) (k : Command) (s t : State) (hi : issues i k) (hr : ∀ r, i ≠ .rd r)
    (h : execCommand k s = .next t) : GoesOnTo i s t := by
  rcases execCommand_cases k s t h with ⟨he, ht⟩ | ⟨he, hV, ht⟩ | ⟨he, hV, hs, ht⟩
  · exact .inl ⟨he, hr, ht⟩
  · exact .inr (.inl ⟨_, hV, ht, .inr (.inr ⟨he, k, hi, rfl⟩)⟩)
  · exact .inr (.inr (.inr (.inr ⟨he, k, hi, hV, hs, ht⟩)))

theorem goesOnTo_of_illegalWrite (r : Reg) (v : Nat) (s t : State) (he : s.err = false)
    (hi : illegalWrite s r v) (h : (.next (s.fail [.illegal]) : Result) = .next t) : GoesOnTo (.wr r v) s t :=
  .inr (.inl ⟨[.illegal], by simp, (Host.Outcome.next.inj h).symm, .inr (.inl ⟨he, r, v, rfl, hi, rfl⟩)⟩)

/-- The inversion of `exec`. -/
theorem exec_cases (i : Instr) (s t : State) (h : exec i s = .next t) : GoesOnTo i s t := by
  cases i with
  | rd r =>
    simp only [exec, execRd] at h
    cases hv : s.regRead r with
    | none =>
      rw [hv] at h
      exact .inr (.inl ⟨_, by simp, (Host.Outcome.next.inj h).symm, .inl ⟨r, rfl, hv, rfl⟩⟩)
    | some v =>
      rw [hv] at h
      exact .inr (.inr (.inl ⟨r, v, rfl, hv, (Host.Outcome.next.inj h).symm⟩))
  | wr r v =>
    simp only [exec] at h
    cases he : s.err with
    | true =>
      rw [execWr_eq, State.asWrite_of_err s _ he] at h
      exact .inl ⟨he, by simp, (Host.Outcome.next.inj h).symm⟩
    | false =>
      rw [execWr_eq, State.asWrite_of_ok s _ he] at h
      by_cases hr : r = .cmd
      · subst hr
        rw [if_pos rfl, writeCmd] at h
        split at h
        · rename_i k hd
          exact goesOnTo_of_command _ k s t (.inr ⟨v, rfl, hd⟩) (by simp) h
        · exact goesOnTo_of_illegalWrite _ v s t he (by simpa [illegalWrite]) h
      · rw [if_neg hr, writeReg] at h
        split at h
        · rename_i s' hs'
          exact .inr (.inr (.inr (.inl ⟨he, r, v, s', rfl, hs', (Host.Outcome.next.inj h).symm⟩)))
        · exact goesOnTo_of_illegalWrite r v s t he (by simpa [illegalWrite, hr]) h
  | extract => exact goesOnTo_of_command _ .extract s t (.inl rfl) (by simp) h
  | checksum => exact goesOnTo_of_command _ .checksum s t (.inl rfl) (by simp) h
  | patch => exact goesOnTo_of_command _ .patch s t (.inl rfl) (by simp) h
  | run => exact goesOnTo_of_command _ .run s t (.inl rfl) (by simp) h
  | crcInit => exact goesOnTo_of_command _ .crcInit s t (.inl rfl) (by simp) h
  | crcByte b => exact goesOnTo_of_command _ (.crcByte b) s t (.inl rfl) (by simp) h

end Sys2Proof.Machine
end

