-- ==== Sys2Proof/Laws/PerInstr.lean ====
section
/-! SUPPORT. Statements about every instruction as syntax, one lemma per constructor. -/

namespace Sys2Proof.Laws.EncodeLength

/-- The encoding has the length the decoder tells from the header (30_encoding.md R78). -/
def Statement (i : Instr) : Prop := ∀ aw, (encode aw i).length = i.bitLength aw

theorem command (k : Command) (aw : Nat) : (commandBits aw k).length = 24 := by
  simp [commandBits, writeBits, Reg.dataWidth, Reg.writable, Reg.width]

theorem rd (r : Reg) : Statement (.rd r) := fun _ => by simp [encode, Instr.bitLength]

theorem wr (r : Reg) (v : Nat) : Statement (.wr r v) := fun _ => by simp [encode, Instr.bitLength, writeBits]

theorem extract : Statement .extract := command .extract

theorem checksum : Statement .checksum := command .checksum

theorem patch : Statement .patch := command .patch

theorem run : Statement .run := command .run

theorem crcInit : Statement .crcInit := command .crcInit

theorem crcByte (b : Byte) : Statement (.crcByte b) := command (.crcByte b)

end Sys2Proof.Laws.EncodeLength
end

