-- ==== Sys2Proof/Laws/Step.lean ====
section
/-! SUPPORT. What one step can do, said once: the inversion of `fetch` and `step`. -/

namespace Sys2Proof.Machine

/-- What the host's pending events can ask for. -/
theorem fetch_cases (s : State) :
    (fetch s = .waiting ∧ decode s.par.aw (leadingBits s.events) = .incomplete ∧
      ∀ rest, s.events ≠ .reset :: rest) ∨
    (∃ rest, s.events = .reset :: rest ∧ fetch s = .reset { s with events := rest }) ∨
    (∃ i, decode s.par.aw (leadingBits s.events) = .instr i ∧
      fetch s = .instr i { s with events := s.events.drop (i.bitLength s.par.aw) }) ∨
    (∃ w, decode s.par.aw (leadingBits s.events) = .malformed w ∧
      fetch s = .malformed w { s with events := s.events.drop 8 }) ∨
    (fetch s = .brokenOff ∧ decode s.par.aw (leadingBits s.events) = .incomplete ∧
      resetPending s.events = true) := by
  unfold fetch
  split
  · rename_i h
    exact .inl ⟨rfl, by rw [h]; rfl, by simp [h]⟩
  · rename_i rest h
    exact .inr (.inl ⟨rest, h, rfl⟩)
  · rename_i b rest h
    split
    · exact .inr (.inr (.inl ⟨_, ‹_›, rfl⟩))
    · exact .inr (.inr (.inr (.inl ⟨_, ‹_›, rfl⟩)))
    · split
      · exact .inr (.inr (.inr (.inr ⟨rfl, ‹_›, ‹_›⟩)))
      · exact .inl ⟨rfl, ‹_›, by simp [h]⟩

/-- Everything a step can do when it goes on: wait, apply reset, run a transaction, or turn away a malformed
header. -/
theorem step_cases (s t : State) (h : step s = .next t) :
    (t = s ∧ decode s.par.aw (leadingBits s.events) = .incomplete ∧ ∀ rest, s.events ≠ .reset :: rest) ∨
    (∃ rest, s.events = .reset :: rest ∧ t = State.applyReset { s with events := rest }) ∨
    (∃ i, decode s.par.aw (leadingBits s.events) = .instr i ∧
      exec i { s with events := s.events.drop (i.bitLength s.par.aw) } = .next t) ∨
    (∃ w, decode s.par.aw (leadingBits s.events) = .malformed w ∧
      t = State.malformedHeader { s with events := s.events.drop 8 } w) := by
  rcases fetch_cases s with ⟨hf, hd, hr⟩ | ⟨rest, he, hf⟩ | ⟨i, hd, hf⟩ | ⟨w, hd, hf⟩ | ⟨hf, _⟩
  · rw [step, hf] at h
    exact .inl ⟨(Host.Outcome.next.inj h).symm, hd, hr⟩
  · rw [step, hf] at h
    exact .inr (.inl ⟨rest, he, (Host.Outcome.next.inj h).symm⟩)
  · rw [step, hf] at h
    exact .inr (.inr (.inl ⟨i, hd, h⟩))
  · rw [step, hf] at h
    exact .inr (.inr (.inr ⟨w, hd, (Host.Outcome.next.inj h).symm⟩))
  · rw [step, hf] at h
    cases h

/-- Bits that stand before other events are read first. -/
theorem leadingBits_append (bs : List Bool) (es : List HostEvent) :
    leadingBits (bs.map .bit ++ es) = bs ++ leadingBits es := by
  induction bs with
  | nil => rfl
  | cons b bs ih => simp [leadingBits, ih]

end Sys2Proof.Machine
end

