-- ==== Sys2Proof/Machine/Assembler.lean ====
section
/-! DEFINITION. The assembler syntax and the pseudo-instructions (30_encoding.md R79, R80, R81), on lists of
characters. Names are as R29 and R75 spell them, in capitals (entry 16). -/

namespace Sys2Proof

/-- `CRCPATCH start, length, crcaddr` (R81). -/
def crcPatch (start length crcAddr : Nat) : List Instr :=
  [.wr .start start, .wr .length length, .wr .crcAddr crcAddr, .run]

/-- `CRCOF b0, ..., bn-1` (R81). -/
def crcOf (bytes : List Byte) : List Instr := .crcInit :: bytes.map .crcByte

namespace Asm

/-- The names of the eleven registers (R29). -/
def regNames : List (List Char × Reg) :=
  [(['C', 'M', 'D'], .cmd), (['S', 'T', 'A', 'T', 'U', 'S'], .status), (['S', 'T', 'A', 'R', 'T'], .start),
   (['L', 'E', 'N', 'G', 'T', 'H'], .length), (['C', 'R', 'C', 'A', 'D', 'D', 'R'], .crcAddr),
   (['C', 'R', 'C'], .crc), (['F', 'I', 'L', 'L'], .fill), (['M', 'A', 'X', 'A', 'D', 'D', 'R'], .maxAddr),
   (['B', 'U', 'F', 'L', 'E', 'N'], .bufLen), (['B', 'U', 'F', 'P', 'T', 'R'], .bufPtr),
   (['B', 'U', 'F', 'D', 'A', 'T', 'A'], .bufData)]

/-- The names of the five commands without an operand (R75). -/
def plainNames : List (List Char × Instr) :=
  [(['E', 'X', 'T', 'R', 'A', 'C', 'T'], .extract), (['C', 'H', 'E', 'C', 'K', 'S', 'U', 'M'], .checksum),
   (['P', 'A', 'T', 'C', 'H'], .patch), (['R', 'U', 'N'], .run), (['C', 'R', 'C', 'I', 'N', 'I', 'T'], .crcInit)]

/-- One digit of a number in the given base, 10 or 16. -/
def digit (base : Nat) (c : Char) : Option Nat :=
  let n := c.toNat
  let d := if 48 ≤ n ∧ n ≤ 57 then n - 48
    else if 97 ≤ n ∧ n ≤ 102 then n - 87
    else if 65 ≤ n ∧ n ≤ 70 then n - 55
    else 16
  if d < base then some d else none

/-- The number the digits spell after the value so far. -/
def digits (base : Nat) : Nat → List Char → Option Nat
  | acc, [] => some acc
  | acc, c :: cs => (digit base c).bind fun d => digits base (base * acc + d) cs

/-- A number, decimal or `0x`-prefixed hexadecimal (R79, R80). -/
def number : List Char → Option Nat
  | [] => none
  | ['0', 'x'] => none
  | '0' :: 'x' :: cs => digits 16 0 cs
  | cs => digits 10 0 cs

/-- A register operand: a name, or an index 0 to 15 (R79). -/
def reg (cs : List Char) : Option Reg :=
  match regNames.lookup cs with
  | some r => some r
  | none => (number cs).bind fun n => if n < 16 then some (Reg.ofIndex n) else none

/-- A byte operand, 0 to 255 (R79). -/
def byte (cs : List Char) : Option Byte :=
  (number cs).bind fun n => if n < 256 then some (BitVec.ofNat 8 n) else none

/-- The words of a line: `;` starts a comment, spaces and commas separate (R79). -/
def words (current : List Char) : List Char → List (List Char)
  | [] => if current = [] then [] else [current.reverse]
  | c :: cs =>
    if c = ';' then (if current = [] then [] else [current.reverse])
    else if c = ' ' ∨ c = ',' then (if current = [] then words [] cs else current.reverse :: words [] cs)
    else words (c :: current) cs

/-- The instructions a mnemonic with its operands stands for; none where the line is no instruction (R79, R81). -/
def instrs (mnemonic : List Char) (operands : List (List Char)) : Option (List Instr) :=
  match plainNames.lookup mnemonic, operands with
  | some i, [] => some [i]
  | some _, _ :: _ => none
  | none, [r] =>
    if mnemonic = ['R', 'D'] then (reg r).map fun r => [.rd r]
    else if mnemonic = ['C', 'R', 'C', 'B', 'Y', 'T', 'E'] then (byte r).map fun b => [.crcByte b]
    else if mnemonic = ['C', 'R', 'C', 'O', 'F'] then (byte r).map fun b => crcOf [b]
    else none
  | none, [r, v] =>
    if mnemonic = ['W', 'R'] then (reg r).bind fun r => (number v).map fun v => [writeInstr r v]
    else if mnemonic = ['C', 'R', 'C', 'O', 'F'] then ([r, v].mapM byte).map crcOf
    else none
  | none, ops =>
    if mnemonic = ['C', 'R', 'C', 'O', 'F'] then (ops.mapM byte).map crcOf
    else if mnemonic = ['C', 'R', 'C', 'P', 'A', 'T', 'C', 'H'] then
      match ops.mapM number with
      | some [start, length, crcAddr] => some (crcPatch start length crcAddr)
      | _ => none
    else none

/-- One line of a program (R79); an empty line or a comment is no instruction. -/
def line (cs : List Char) : Option (List Instr) :=
  match words [] cs with
  | [] => some []
  | mnemonic :: operands => instrs mnemonic operands

end Asm

end Sys2Proof
end

