-- ==== Sys2Proof/Tests/Slice0.lean ====
section
/-! SUPPORT. The model's own tests. Expected results come from spec/95_test_vectors.md (the row or program named at
each test) or by hand from the rule named. The second part shows, for every statement that has hypotheses, a state
and operands that meet them all. -/

namespace Sys2Proof.Tests

open Sys2Proof.Machine

/-! ### Words of the spec, bit by bit, and what they decode to (30_encoding.md R71, R75, section 2.7) -/

theorem test_decode_rd_crc : decode 32 [false, false, false, false, false, true, false, true] = .instr (.rd .crc) := by
  decide

/-- `WR FILL, 0xBEEF` is `0x86BEEF`. -/
theorem test_decode_wr_fill :
    decode 32 [true, false, false, false, false, true, true, false,
      true, false, true, true, true, true, true, false, true, true, true, false, true, true, true, true] =
    .instr (.wr .fill 0xBEEF) := by decide

/-- `WR START, 2` at `AW = 2`: header, then two bits. -/
theorem test_decode_wr_start_narrow :
    decode 2 [true, false, false, false, false, false, true, false, true, false] = .instr (.wr .start 2) := by decide

theorem test_decode_extract :
    decode 32 [true, false, false, false, false, false, false, false,
      false, false, false, true, false, false, false, false, false, false, false, false, false, false, false, false] =
    .instr .extract := by decide

theorem test_decode_checksum :
    decode 32 [true, false, false, false, false, false, false, false,
      false, false, true, false, false, false, false, false, false, false, false, false, false, false, false, false] =
    .instr .checksum := by decide

theorem test_decode_patch :
    decode 32 [true, false, false, false, false, false, false, false,
      false, false, true, true, false, false, false, false, false, false, false, false, false, false, false, false] =
    .instr .patch := by decide

theorem test_decode_run :
    decode 32 [true, false, false, false, false, false, false, false,
      false, true, false, false, false, false, false, false, false, false, false, false, false, false, false, false] =
    .instr .run := by decide

theorem test_decode_crcInit :
    decode 32 [true, false, false, false, false, false, false, false,
      false, true, false, true, false, false, false, false, false, false, false, false, false, false, false, false] =
    .instr .crcInit := by decide

/-- `CRCBYTE 0x31` is `0x806031`. -/
theorem test_decode_crcByte :
    decode 32 [true, false, false, false, false, false, false, false,
      false, true, true, false, false, false, false, false, false, false, true, true, false, false, false, true] =
    .instr (.crcByte 0x31) := by decide

/-- Section 2.7: `0x7F` has bits 6:4 set and is a read; `0xC5` has bit 6 set and is a write. -/
theorem test_decode_malformed :
    decode 32 [false, true, true, true, true, true, true, true] = .malformed false ∧
    decode 32 [true, true, false, false, false, true, false, true] = .malformed true := by decide

/-- Section 2.7: command words that are illegal. -/
theorem test_decode_illegal_commands :
    [0x0000, 0x1001, 0x1100, 0x50FF, 0x6100, 0x7000, 0xF000, 0xFFFF].map decodeCommand =
      List.replicate 8 none := by decide

/-- The opcode table's words, as spec/opcode_table.json numbers them. -/
theorem test_table_words :
    [decodeTableWord 8 0x00, decodeTableWord 8 0x80, decodeTableWord 16 0x1000, decodeTableWord 16 0x2000,
      decodeTableWord 16 0x3000, decodeTableWord 16 0x4000, decodeTableWord 16 0x5000, decodeTableWord 16 0x6000] =
    [some (.rd .cmd), some (.wr .cmd 0), some .extract, some .checksum, some .patch, some .run, some .crcInit,
      some (.crcByte 0)] := by decide

/-- A placed table word runs as the first transaction after reset (section 2.7: `STATUS` after each). -/
theorem test_table_words_run_from_reset :
    [(8, 0x00), (8, 0x80), (16, 0x1000), (16, 0x2000), (16, 0x3000), (16, 0x4000), (16, 0x5000), (16, 0x6000)].map
      (fun p => (nextState? (step (State.reset.withFetchWord p.1 p.2))).map (·.status)) =
    [some 0x2002, some 0x2002, some 0x0001, some 0x0001, some 0x0001, some 0x0001, some 0x0001, some 0x0001] := by
  decide

/-! ### Ill-formed terms are refused -/

/-- A value of `AW` bits is the widest `START` takes (R74). -/
theorem test_wf_value : Instr.wf 32 (.wr .start 0xFFFFFFFF) = true ∧ Instr.wf 32 (.wr .start 0x100000000) = false := by
  decide

/-- A read-only register has no data field (R78). -/
theorem test_wf_read_only : Instr.wf 32 (.wr .status 0) = true ∧ Instr.wf 32 (.wr .status 1) = false := by decide

/-- `EXTRACT` written to `CMD` is spelt `EXTRACT` (entry 10). -/
theorem test_wf_own_name : Instr.wf 32 (.wr .cmd 0x1000) = false ∧ Instr.wf 32 (.wr .cmd 0x0000) = true := by decide

/-! ### One step of each instruction -/

/-- The image of S1 with `MAXADDR = 8` and the operands of P1, `AW = 32`, `FILL_RESET = 0x1234`. -/
def demo : State where
  par := { aw := 32, fillReset := 0x1234 }
  mem := [(0, 0x1111), (1, 0x2222), (2, 0x3333), (3, 0x4444), (4, 0x5555), (5, 0x6666)]
  maxAddress := 8
  fill := 0x1234
  start := 0
  length := 6
  crcAddr := 6
  buf := []
  bufPtr := 0
  crc := 0xFFFF
  status := 0x0000
  events := []
  reply := .noReply

/-- `demo` in the error state, after `E_START_ODD`. -/
def demoErr : State := { demo with status := 0x0102 }

/-- What is left of a field after an instruction. -/
def after {α : Type} (i : Instr) (s : State) (f : State → α) : Option α := (nextState? (exec i s)).map f

/-- P6: `BUFDATA` at the last byte and one beyond it. -/
theorem test_rd_bufData :
    after (.rd .bufData) { demo with buf := [0x44, 0x33, 0x32], bufPtr := 2 } (·.reply) = some (.value 0x32) ∧
    after (.rd .bufData) { demo with buf := [0x44, 0x33, 0x32], bufPtr := 3 } (·.reply) = some (.value 0x00) := by
  decide

/-- Section 2.8, step 6: a failing read in the error state adds `E_ILLEGAL`. -/
theorem test_rd_cmd_in_error : after (.rd .cmd) demoErr (·.status) = some 0x2102 := by decide

/-- Section 2.8: `BUFPTR` has 33 bits. -/
theorem test_wr_bufPtr :
    after (.wr .bufPtr 0x100000000) demo (·.bufPtr) = some 0x100000000 ∧
    after (.wr .bufPtr 0x200000000) demo (·.status) = some 0x2002 := by decide

/-- Section 2.7: a value too wide for `CMD`; section 2.8: a write of `CRC` clears `DONE` and leaves `CRC`. -/
theorem test_wr_fails :
    after (.wr .cmd 0x10000) demo (·.status) = some 0x2002 ∧
    after (.wr .crc 0) { demo with status := 0x0001 } (fun t => (t.status, t.crc)) = some (0x2002, 0xFFFF) := by decide

/-- P2: absent words in both positions; `BUF` and `FILL`. -/
theorem test_extract_absent_words :
    after .extract { demo with mem := [(0x100, 0xABCD), (0x103, 0x12EF)], maxAddress := 0x200, start := 0x100, length := 4 }
      (fun t => (t.buf, t.fill)) = some ([0xFF, 0xAB, 0xCD, 0xEF, 0xFF, 0xFF], 0x00FF) := by decide

/-- X19: the sum does not wrap. -/
theorem test_extract_no_wrap :
    after .extract { demo with maxAddress := 0xFFFFFFFF, start := 0xFFFFFFFE, length := 0xFFFFFFFE } (·.status) =
      some 0x0402 := by decide

/-- Section 2.3: `CHECKSUM` of S1's buffer, and of the empty buffer whatever `CRC` held. -/
theorem test_checksum :
    after .checksum { demo with buf := [0x22, 0x11, 0x11, 0x44, 0x33, 0x33, 0x66, 0x55, 0x55] } (·.crc) = some 0xFCFC ∧
    after .checksum { demo with crc := 0x7DA7 } (·.crc) = some 0xFFFF := by decide +kernel

/-- Section 2.5, last row: the top two slots of the address space. -/
theorem test_patch_top :
    after .patch { demo with mem := [], crcAddr := 0xFFFFFFFE } (·.mem) =
      some [(0xFFFFFFFE, 0xFFFF), (0xFFFFFFFF, 0x0000)] := by decide

/-- Section 2.5: an odd `CRCADDR`; the image is unchanged. -/
theorem test_patch_odd :
    after .patch { demo with crcAddr := 7 } (fun t => (t.status, t.mem)) = some (0x0802, demo.mem) := by decide

/-- P5, step 4: slots inside the window; the checksum is that of the old content. -/
theorem test_run_slots_inside :
    after .run { demo with maxAddress := 6, crcAddr := 4 } (fun t => (t.crc, t.mem)) =
      some (0xFCFC, [(0, 0x1111), (1, 0x2222), (2, 0x3333), (3, 0x4444), (4, 0xFCFC), (5, 0x0000)]) := by decide +kernel

/-- P3: all four constraints violated; nothing but `STATUS` changes. -/
theorem test_run_rejected :
    after .run { demo with maxAddress := 2, start := 1, length := 3, crcAddr := 7 }
      (fun t => (t.status, t.crc, t.mem)) = some (0x0F02, 0xFFFF, demo.mem) ∧
    after .run { demo with maxAddress := 2, start := 1, length := 3, crcAddr := 7 } (fun t => (t.buf, t.fill)) =
      some ([], 0x1234) := by decide

/-- R128, and its refusal in the error state (section 2.8, step 5). -/
theorem test_crcInit :
    after .crcInit { demo with crc := 0x7DA7 } (fun t => (t.crc, t.status)) = some (0xFFFF, 0x0001) ∧
    after .crcInit { demoErr with crc := 0x7DA7 } (fun t => (t.crc, t.status, t.reply)) =
      some (0x7DA7, 0x0102, .refused) := by decide

/-- Section 2.2: two rows of the table of `CrcByte`. -/
theorem test_crcByte :
    after (.crcByte 0x31) demo (·.crc) = some 0x7DA7 ∧
    after (.crcByte 0x56) { demo with crc := 0x1234 } (·.crc) = some 0x3598 := by decide

/-! ### The step -/

/-- Section 2.8, steps 3 and 4: a refused `WR START, 0` takes its data, and the next transaction is what follows. -/
theorem test_step_refused_write :
    (nextState? (step { demoErr with events := (encode 32 (.wr .start 0) ++ encode 32 (.rd .start)).map .bit })).map
      (fun t => (t.reply, t.events)) = some (.refused, (encode 32 (.rd .start)).map .bit) := by decide

/-- Section 2.8, step 8: reset; the image and `MAXADDR` stay. -/
theorem test_step_reset :
    (nextState? (step { demoErr with crc := 0, fill := 0, events := [.reset] })).map
      (fun t => (t.status, t.length, t.crc)) = some (0x0000, 0, 0xFFFF) ∧
    (nextState? (step { demoErr with crc := 0, fill := 0, events := [.reset] })).map
      (fun t => (t.fill, t.mem, t.maxAddress)) = some (0x1234, demo.mem, 8) := by decide

/-- U11 (entry 7): reset after four bits of a header. -/
theorem test_step_reset_inside :
    step { demo with events := [.bit true, .bit false, .bit false, .bit false, .reset] } =
      .refused .resetInsideTransaction := rfl

/-- A loaded image is canonical, and a later word for an address wins (entry 15). -/
theorem test_loadImage :
    (demo.loadImage [(5, 1), (0, 2), (5, 3)] 9).mem = [(0, 2), (5, 3)] := by decide

/-! ### The assembler (R79, R81) -/

/-- `WR START, 0x100 ; base`. -/
theorem test_asm_wr :
    Asm.line ['W', 'R', ' ', 'S', 'T', 'A', 'R', 'T', ',', ' ', '0', 'x', '1', '0', '0', ' ', ';', ' ', 'b'] =
      some [.wr .start 0x100] := by decide

/-- `WR CMD, 0x11000` is a write of a value too wide, not `EXTRACT`: it fails `E_ILLEGAL` (R74, R90). -/
theorem test_asm_wr_too_wide :
    Asm.line ['W', 'R', ' ', 'C', 'M', 'D', ',', ' ', '0', 'x', '1', '1', '0', '0', '0'] = some [.wr .cmd 0x11000] ∧
    after (.wr .cmd 0x11000) demo (·.status) = some 0x2002 := by decide

/-- `CRCPATCH 0, 6, 6` (P1). -/
theorem test_asm_crcPatch :
    Asm.line ['C', 'R', 'C', 'P', 'A', 'T', 'C', 'H', ' ', '0', ',', ' ', '6', ',', ' ', '6'] =
      some [.wr .start 0, .wr .length 6, .wr .crcAddr 6, .run] := by decide

/-! ### Witnesses: every statement's hypotheses can be met, each clause at a boundary -/

theorem demo_inv : demo.Inv where
  two_le_aw := by decide
  image_wf := by decide
  maxAddress_lt := by decide
  start_lt := by decide
  length_lt := by decide
  crcAddr_lt := by decide
  bufPtr_lt := by decide
  buf_groups := by decide
  buf_le := by decide
  status_reserved := by decide
  not_done_and_err := by decide
  err_iff_cause := by decide

theorem demoErr_inv : demoErr.Inv where
  two_le_aw := by decide
  image_wf := by decide
  maxAddress_lt := by decide
  start_lt := by decide
  length_lt := by decide
  crcAddr_lt := by decide
  bufPtr_lt := by decide
  buf_groups := by decide
  buf_le := by decide
  status_reserved := by decide
  not_done_and_err := by decide
  err_iff_cause := by decide

/-- The narrowest machine, `AW = 2`, with its last pair of slots as window and as target. -/
def tiny : State :=
  { demo with par := { aw := 2, fillReset := 0 }, mem := [(1, 0xEE12)], maxAddress := 3, length := 2, crcAddr := 2 }

theorem tiny_inv : tiny.Inv where
  two_le_aw := by decide
  image_wf := by decide
  maxAddress_lt := by decide
  start_lt := by decide
  length_lt := by decide
  crcAddr_lt := by decide
  bufPtr_lt := by decide
  buf_groups := by decide
  buf_le := by decide
  status_reserved := by decide
  not_done_and_err := by decide
  err_iff_cause := by decide

/-- `ResetEventRestoresBlockAndAloneClearsError`: a reset event; a step in the error state that is none. -/
theorem witness_reset_event :
    ({ demoErr with events := [.reset] } : State).events = .reset :: [] ∧
    (nextState? (step { demoErr with events := (encode 32 (.rd .status)).map .bit })).isSome = true ∧
    (∀ rest, ({ demoErr with events := (encode 32 (.rd .status)).map .bit } : State).events ≠ .reset :: rest) ∧
    Status.err demoErr.status = true ∧ demoErr.status.getLsbD 8 = true :=
  ⟨rfl, by decide, fun rest h => (by cases h), by decide, by decide⟩

/-- `EveryStepKeepsTheInvariant`, `StepStopsOnlyForResetInsideTransaction`,
`EveryTransactionHasOneOfTheThreeOutcomes`: a state that meets the invariant and steps, at both ends of `AW`. -/
theorem witness_inv_step :
    demo.Inv ∧ (nextState? (step demo)).isSome = true ∧ tiny.Inv ∧ (nextState? (exec .run tiny)).isSome = true :=
  ⟨demo_inv, by decide, tiny_inv, by decide +kernel⟩

/-- `ErrorStateIsFrozenButForIllegalReads`, `ErrorStateRefusesEveryWrite`: both outcomes of its last clause; a
malformed header of either kind. -/
theorem witness_error_state :
    demoErr.Inv ∧ demoErr.err = true ∧
    isIllegalRead (decode 32 (bitsOfNat 8 0x10)) = true ∧ isIllegalRead (decode 32 (bitsOfNat 8 0x90)) = false ∧
    isIllegalRead (decode 32 (bitsOfNat 8 0x0B)) = true ∧ isIllegalRead (decode 32 (bitsOfNat 8 0x01)) = false ∧
    after (.wr .start 0) demoErr (·.status) = some demoErr.status ∧
    after (.rd .cmd) demoErr (·.status) = some (demoErr.status ||| 0x2000) ∧
    demoErr.regRead .bufData = some 0 ∧ demoErr.regRead .undef11 = none :=
  ⟨demoErr_inv, by decide, by decide, by decide, by decide, by decide, by decide, by decide, rfl, rfl⟩

/-- `FailureChangesOnlyStatus`: an instruction that fails; R174 for a command word, an undefined word, a value too
wide and a legal one. -/
theorem witness_failure :
    after .patch { demo with crcAddr := 7 } (·.reply) = some .failed ∧
    after (.wr .cmd 0x3000) { demo with crcAddr := 7 } (·.reply) = some .failed ∧
    mayRaise 32 (.wr .cmd 0x3000) = [.crcAddrOdd] ∧ mayRaise 32 (.wr .cmd 0x2000) = [] ∧
    mayRaise 32 (.wr .cmd 0xFFFF) = [.illegal] ∧ mayRaise 32 (.wr .start (2 ^ 32)) = [.illegal] ∧
    mayRaise 32 (.wr .start (2 ^ 32 - 1)) = [] := by decide

/-- `OutcomeDeterminesStatus`: each of its three outcomes. -/
theorem witness_outcomes :
    after (.rd .crc) demo (·.reply) = some (.value 0xFFFF) ∧ after .run demoErr (·.reply) = some .refused ∧
    after .crcInit demo (·.reply) = some .completed ∧ after (.wr .fill 0) demo (·.reply) = some .completed ∧
    after (.wr .cmd 0x5000) demo (·.reply) = some .completed := by decide

/-- `DecodeOfEncodeIsTheInstruction`, `StepRunsTheEncodedTransaction`: well-formed instructions at a boundary. -/
theorem witness_wf :
    Instr.wf 32 (.wr .bufPtr 0x1FFFFFFFF) = true ∧ Instr.wf 2 (.wr .start 3) = true ∧
    ({ demo with events := (encode 32 (.wr .bufPtr 0x1FFFFFFFF)).map .bit ++ [.reset] } : State).events =
      (encode demo.par.aw (.wr .bufPtr 0x1FFFFFFFF)).map .bit ++ [.reset] :=
  ⟨by decide, by decide, rfl⟩

/-- `DecodedBitsAreTheEncoding`, `StepRunsTheDecodedTransaction`: bits that decode. -/
theorem witness_decoded :
    decode demo.par.aw (leadingBits (((bitsOfNat 24 0x804000).map .bit) ++ [.reset])) = .instr .run := by decide

/-- `MalformedHeaderFailsOrIsRefused`: both outcomes. -/
theorem witness_malformed :
    (0x90#8).extractLsb 6 4 ≠ 0 ∧ (0x90#8).getLsbD 7 = true ∧ demoErr.err = true ∧ (0x10#8).extractLsb 6 4 ≠ 0 ∧
    (0x10#8).getLsbD 7 = false ∧
    ({ demoErr with events := (bitsOfNat 8 (0x90#8).toNat).map .bit ++ [] } : State).events =
      (bitsOfNat 8 (0x90#8).toNat).map .bit ++ [] := by decide

/-- `WriteToUnwritableRegisterTakesNoData`: a read-only and an undefined register. -/
theorem witness_unwritable :
    Reg.writable .bufData = false ∧ Reg.writable .undef11 = false ∧ demo.err = false ∧
    ({ demo with events := (headerBits true .bufData).map .bit ++ [.bit true] } : State).events =
      (headerBits true .bufData).map .bit ++ [.bit true] := by decide

/-- `StepWaitsForAWholeTransaction`: nothing pending, and a transaction broken off. -/
theorem witness_waiting :
    decode demo.par.aw (leadingBits demo.events) = .incomplete ∧ (∀ rest, demo.events ≠ .reset :: rest) ∧
    decode 32 (leadingBits [.bit true, .reset]) = .incomplete ∧ resetPending [.bit true, .reset] = true :=
  ⟨by decide, fun rest h => (by cases h), by decide, by decide⟩

/-- `PlacedTableWordRunsNext`: a row of each format. -/
theorem witness_table_word :
    decodeTableWord 8 0x8F = some (.wr .undef15 0) ∧ decodeTableWord 16 0x60FF = some (.crcByte 0xFF) := by decide

/-- `ReadReturnsTheRegister`: the pointer on either side of the end of `BUF`, and a read that returns. -/
theorem witness_read :
    (2 < ([0x44, 0x33, 0x32] : List Byte).length) ∧ (([0x44, 0x33, 0x32] : List Byte).length ≤ 3) ∧ demo.Inv ∧
    after (.rd .maxAddr) demo (·.reply) = some (.value 8) ∧ after .extract demo (·.reply) = some .completed ∧
    2 ≤ demo.length :=
  ⟨by decide, by decide, demo_inv, by decide, by decide, by decide⟩

/-- `WriteStoresTheValue`, `WrittenValueReadsBack`: the widest value of each register. -/
theorem witness_write :
    demo.err = false ∧ 0xFFFFFFFF < 2 ^ demo.par.aw ∧ 0xFFFF < 2 ^ 16 ∧ 0x1FFFFFFFF < 2 ^ (demo.par.aw + 1) ∧
    Reg.writable .bufPtr = true ∧ Reg.bufPtr ≠ .cmd ∧ 0x1FFFFFFFF < 2 ^ Reg.width demo.par.aw .bufPtr := by decide

/-- `IllegalWriteFails`: the least value too wide, and a read-only register. -/
theorem witness_illegal_write :
    2 ^ Reg.width demo.par.aw .start ≤ 0x100000000 ∧ 2 ^ Reg.width demo.par.aw .cmd ≤ 0x10000 ∧
    Reg.writable .maxAddr = false := by decide

/-- `WriteToCmdExecutesTheCommand`: a legal and an undefined word. -/
theorem witness_command_words :
    decodeCommand 0x60FF = some (.crcByte 0xFF) ∧ decodeCommand 0x6100 = none ∧ demo.err = false := by decide

/-- `RegistersChangeOnlyByTheirOwnWrite`, `InstructionsWriteOnlyTheirOwnState`, `ResultGuardNeverFails`: an
instruction of each kind that goes on, and registers that change. -/
theorem witness_writers :
    after (.wr .start 5) demo (·.start) = some 5 ∧ after (.wr .length 5) demo (·.length) = some 5 ∧
    after (.wr .crcAddr 5) demo (·.crcAddr) = some 5 ∧ after (.wr .bufPtr 5) demo (·.bufPtr) = some 5 ∧
    writesImage .extract = false ∧ writesBuf .patch = false ∧ writesCrc .extract = false ∧ writesFill .patch = false := by
  decide

/-- `ExtractFillsTheBufferFromTheWindow`, `PatchStoresTheChecksum`, `RunExtractsChecksumsAndPatches`,
`RunEqualsTheThreeCommands`, `RunIsIdempotentOutsideTheWindow`: valid operands, the slots just behind the window
and just in front of it; `CRCADDR` odd; the last pair of the narrowest machine. -/
theorem witness_run :
    (demo.Inv ∧ demo.err = false ∧ demo.start % 2 = 0 ∧ demo.length % 2 = 0 ∧
      demo.start + demo.length ≤ demo.maxAddress ∧ demo.crcAddr % 2 = 0 ∧ demo.start + demo.length ≤ demo.crcAddr ∧
      (nextState? (exec .run demo)).isSome = true) ∧
    (0 + 1 < ({ demo with start := 2, length := 4, crcAddr := 0 } : State).start) ∧
    ({ demo with crcAddr := 7 } : State).crcAddr % 2 = 1 ∧
    (tiny.Inv ∧ tiny.err = false ∧ tiny.start + tiny.length ≤ tiny.maxAddress ∧ tiny.crcAddr % 2 = 0) :=
  ⟨⟨demo_inv, by decide, by decide, by decide, by decide, by decide, by decide, by decide +kernel⟩, by decide, by decide,
    tiny_inv, by decide, by decide, by decide⟩

/-- The failing clauses of `ExtractFillsTheBufferFromTheWindow`, `PatchStoresTheChecksum` and
`RunExtractsChecksumsAndPatches`, the range violated by one; and the image of their examples. -/
theorem witness_failing_checks :
    ({ demo with maxAddress := 5 } : State).checkWindow demo.start demo.length ≠ [] ∧
    demo.checkRun demo.start demo.length 7 ≠ [] ∧ demo.checkRun demo.start demo.length demo.crcAddr = [] ∧
    demo.mem = [(0, 0x1111), (1, 0x2222), (2, 0x3333), (3, 0x4444), (4, 0x5555), (5, 0x6666)] := by decide

/-- `ImageReadsAndWrites`: a present and an absent slot, on either side of the end of the image. -/
theorem witness_image : Memory.lookup demo.mem 5 = some 0x6666 ∧ demo.present 6 = false := by decide

/-- `CheckWindowIsTheSetOfViolatedConstraints`: two states with one `MAXADDR` and different images. -/
theorem witness_same_maxAddress : demo.maxAddress = ({ demo with mem := [] } : State).maxAddress ∧ demo.mem ≠ [] := by
  decide

/-- `ExtractedBytesByPresence`: the last pair of a window, and the empty window. -/
theorem witness_last_pair : 2 < demo.length / 2 ∧ 0 % 2 = 0 := by decide

/-- `ExtractionDependsOnlyOnTheWindow`: two states that agree on a window and differ in the fill and outside. -/
theorem witness_same_window :
    (∀ a, 0 ≤ a → a < 0 + 4 → Memory.lookup demo.mem a =
      Memory.lookup ({ demo with mem := demo.mem.take 4, fill := 0 } : State).mem a) ∧
    ({ demo with mem := demo.mem.take 4, fill := 0 } : State).fill ≠ demo.fill ∧ demo.mem.take 4 ≠ demo.mem := by
  refine ⟨fun a _ h => ?_, by decide, by decide⟩
  interval_cases a <;> rfl

/-- `EveryViolatedConstraintIsReported`: each constraint violated by itself, the range by one. -/
theorem witness_violations :
    demo.err = false ∧ ({ demo with start := 1 } : State).start % 2 = 1 ∧ ({ demo with length := 5 } : State).length % 2 = 1 ∧
    ({ demo with maxAddress := 5 } : State).maxAddress < demo.start + demo.length ∧
    ({ demo with crcAddr := 7 } : State).crcAddr % 2 = 1 := by decide

/-- `CrcBitInGates`: the last bit. -/
theorem witness_gate : 15 < 16 := by decide

/-- `CrcInitLoadsTheInitialValue`, `CrcByteShiftsInOneByte`, `ChecksumIsTheCrcOfTheBuffer`,
`StreamedBytesGiveTheChecksum`: not in the error state, `BUF` empty, `CRC` at `0xFFFF`, a message. -/
theorem witness_crc_commands :
    demo.err = false ∧ demo.buf = [] ∧ demo.crc = 0xFFFF ∧ ([0x31] : List Byte) ≠ [] := by decide

/-- `PatchWritesExactlyTwoSlots`, `CheckPatchIsTheSetOfViolatedConstraints`: on either side of the guard, and the
last even address of the narrowest machine. -/
theorem witness_guard :
    0xFFFFF < 2 ^ 20 ∧ 2 < 2 ^ 2 ∧ .crcAddrOdd ∉ checkPatch 2 0 ∧ checkPatch 6 0xFFFFF = [] ∧ checkPatch 7 0x100000 = [.crcAddrOdd, .resultRange] := by decide

end Sys2Proof.Tests
end

section
/-! PROOF. The laws of the image primitives (20_memory.md R52, R53): what a read returns by presence, and what a
read and the presence of a slot are after a write. -/

namespace Sys2Proof.Machine.State

variable (s : State)

theorem readFb_of_absent {a : Nat} (f : Word) (h : s.present a = false) : s.readFb a f = f := by
  have hnone : Memory.lookup s.mem a = none := by simpa [present] using h
  rw [readFb, hnone, Option.getD_none]

theorem present_of_lookup {a : Nat} {w : Word} (h : Memory.lookup s.mem a = some w) : s.present a = true := by
  rw [present, h, Option.isSome_some]

theorem readFb_of_lookup {a : Nat} {w : Word} (f : Word) (h : Memory.lookup s.mem a = some w) :
    s.readFb a f = w := by
  rw [readFb, h, Option.getD_some]

theorem present_imgWrite (a b : Nat) (v : Word) :
    (s.imgWrite a v).present b = if b = a then true else s.present b := by
  rw [present, imgWrite_lookup, apply_ite Option.isSome, Option.isSome_some, present]

theorem readFb_imgWrite (a b : Nat) (v f : Word) :
    (s.imgWrite a v).readFb b f = if b = a then v else s.readFb b f := by
  rw [readFb, imgWrite_lookup, apply_ite (Option.getD · f), Option.getD_some, readFb]

/-- The image is the only field `ImgWrite` touches (R53: "and nothing else"). -/
theorem imgWrite_frame (a : Nat) (v : Word) : s.imgWrite a v = { s with mem := (s.imgWrite a v).mem } := rfl

end Sys2Proof.Machine.State

namespace Sys2Proof.Machine

/-- Settles O45: reads by the presence of the slot, and the laws of reading after writing. -/
theorem imageReadsAndWrites : Obligations.ImageReadsAndWrites := by
  unfold Obligations.ImageReadsAndWrites
  constructor
  · intro s a f
    have hread : s.imgRead a = s.readFb a s.fill := rfl
    exact ⟨hread, s.readFb_of_absent f, fun w hw => ⟨s.present_of_lookup hw, s.readFb_of_lookup f hw⟩⟩
  · intro s a b v f
    exact ⟨s.present_imgWrite a b v, s.readFb_imgWrite a b v f, s.imgWrite_frame a v⟩

end Sys2Proof.Machine
end

section
/-! PROOF. A legal command word is exactly the word of its command (30_encoding.md R73, R75), and with it the map of
all command words. -/

namespace Sys2Proof

/-- With the field of bits 11:8 zero, the operation and `imm8` make up the word (R73). -/
theorem toNat_of_zeroField_eq_zero {c : Word} (hzero : c.extractLsb 11 8 = 0) :
    c.toNat = 4096 * (c.extractLsb 15 12).toNat + (c.extractLsb 7 0).toNat := by
  have hzero' := congrArg BitVec.toNat hzero
  simp only [BitVec.extractLsb_toNat, Nat.shiftRight_eq_div_pow, BitVec.ofNat_eq_ofNat, BitVec.toNat_ofNat] at hzero' ⊢
  omega

/-- `crcByte b` is the word `0x6000 + b` (R75). -/
theorem toNat_word_crcByte (b : Byte) : (Command.crcByte b).word.toNat = 0x6000 + b.toNat :=
  (BitVec.toNat_append 0x60#8 b).trans (Nat.shiftLeft_add_eq_or_of_lt b.isLt 0x60).symm

theorem plainCommand_eq_some {imm8 : Byte} {k k' : Command} (h : plainCommand imm8 k = some k') :
    imm8 = 0 ∧ k = k' := by
  simpa [plainCommand] using h

/-- No two words encode one command: a row of the map (R73) fixes every field of the word. -/
theorem word_eq_of_decodeCommand {c : Word} {k : Command} (h : decodeCommand c = some k) : c = k.word := by
  unfold decodeCommand at h
  split at h
  · cases h
  · next hzero =>
    have hfields := toNat_of_zeroField_eq_zero (not_not.mp hzero)
    apply BitVec.eq_of_toNat_eq
    split at h
    case h_6 hop =>
      cases h
      rw [toNat_word_crcByte, hfields, hop]
    case h_7 => cases h
    all_goals
      next hop =>
        obtain ⟨himm, rfl⟩ := plainCommand_eq_some h
        rw [hfields, hop, himm]
        rfl

theorem decodeCommand_eq_some_iff (c : Word) (k : Command) : decodeCommand c = some k ↔ c = k.word :=
  ⟨word_eq_of_decodeCommand, fun h => h ▸ decodeCommand_word k⟩

/-- A word of the range R73 gives `CRCBYTE` is the word of the command with its low byte. -/
theorem word_crcByte_ofNat {c : Word} (hlo : 0x6000 ≤ c.toNat) (hhi : c.toNat ≤ 0x60FF) :
    (Command.crcByte (BitVec.ofNat 8 c.toNat)).word = c := by
  apply BitVec.eq_of_toNat_eq
  rw [toNat_word_crcByte, BitVec.toNat_ofNat]
  omega

/-- Settles O14: a word of the map is the word of its command; a word outside it is the word of none. -/
theorem commandWordsAreExactlyThoseOfTheMap : Obligations.CommandWordsAreExactlyThoseOfTheMap := by
  unfold Obligations.CommandWordsAreExactlyThoseOfTheMap
  intro c
  split_ifs with hextract hchecksum hpatch hrun hcrcInit hrange
  · exact (decodeCommand_eq_some_iff c .extract).mpr hextract
  · exact (decodeCommand_eq_some_iff c .checksum).mpr hchecksum
  · exact (decodeCommand_eq_some_iff c .patch).mpr hpatch
  · exact (decodeCommand_eq_some_iff c .run).mpr hrun
  · exact (decodeCommand_eq_some_iff c .crcInit).mpr hcrcInit
  · exact (decodeCommand_eq_some_iff c _).mpr (word_crcByte_ofNat hrange.1 hrange.2).symm
  · refine Option.eq_none_iff_forall_ne_some.mpr fun k hk => ?_
    have hword := word_eq_of_decodeCommand hk
    cases k with
    | extract => exact hextract hword
    | checksum => exact hchecksum hword
    | patch => exact hpatch hword
    | run => exact hrun hword
    | crcInit => exact hcrcInit hword
    | crcByte b =>
      have hnat := toNat_word_crcByte b
      rw [← hword] at hnat
      exact hrange (by omega)

end Sys2Proof
end

section
/-! PROOF. The host's read: what it returns of each register (40_host_access.md R91), and that a value it returns fits
the register's width (10_state.md R29). -/

namespace Sys2Proof.Machine

namespace State

variable (s : State)

theorem bufData_of_lt (h : s.bufPtr < s.buf.length) : s.bufData = s.buf[s.bufPtr] :=
  (List.getElem_eq_getD 0x00).symm

theorem bufData_of_length_le (h : s.buf.length ≤ s.bufPtr) : s.bufData = 0x00 :=
  List.getD_eq_default _ _ h

/-- The longest `BUF` that R27 allows still has a length that `BUFLEN` can hold. -/
theorem Inv.buf_length_lt {s : State} (hs : s.Inv) : s.buf.length < 2 ^ (s.par.aw + 1) := by
  have hle := hs.buf_le
  have hpos := Nat.two_pow_pos s.par.aw
  rw [pow_succ]
  omega

/-- In a legal state every register the host can read holds a value of its width (R29). -/
theorem Inv.regRead_lt {s : State} (hs : s.Inv) {r : Reg} {v : Nat} (h : s.regRead r = some v) :
    v < 2 ^ r.width s.par.aw := by
  cases r <;> cases h
  case status => exact s.status.isLt
  case start => exact hs.start_lt
  case length => exact hs.length_lt
  case crcAddr => exact hs.crcAddr_lt
  case crc => exact s.crc.isLt
  case fill => exact s.fill.isLt
  case maxAddr => exact hs.maxAddress_lt
  case bufLen => exact hs.buf_length_lt
  case bufPtr => exact hs.bufPtr_lt
  case bufData => exact s.bufData.isLt

theorem fill_extracted_of_two_le {n : Nat} (h : 2 ≤ n) : (s.extracted n).fill = fillLo := by
  rw [extracted, if_neg (by omega), withFill_fill]

end State

/-- A read of a readable register changes nothing but the record of the outcome, in the error state too (R91, R92). -/
theorem exec_rd_of_regRead {s : State} {r : Reg} {v : Nat} (h : s.regRead r = some v) :
    exec (.rd r) s = .next { s with reply := .value v } := by
  simp only [exec, execRd, h, State.withReply]

theorem exec_rd_of_unreadable (s : State) {r : Reg} (h : r.readable = false) :
    exec (.rd r) s = .next { s with status := (s.status ||| 0x2002) &&& 0xFFFE, reply := .failed } := by
  simp only [exec, execRd, (s.regRead_eq_none r).mpr h, State.fail_eq, Status.raise_illegal]

/-- Only a legal read reports a value, and the value is the register's. -/
theorem regRead_of_exec_rd_value {s t : State} {r : Reg} {v : Nat} (h : exec (.rd r) s = .next t)
    (hv : t.reply = .value v) : s.regRead r = some v := by
  cases hr : s.regRead r with
  | some w =>
    rw [exec_rd_of_regRead hr] at h
    cases h
    cases hv
    rfl
  | none =>
    rw [exec_rd_of_unreadable s ((s.regRead_eq_none r).mp hr)] at h
    cases h
    cases hv

/-- The reply tells a completed command from one that was refused or failed, so the next state is its effect. -/
theorem eq_commandEffect_of_completed {k : Command} {s t : State} (h : execCommand k s = .next t)
    (hc : t.reply = .completed) : t = s.commandEffect k := by
  rcases execCommand_cases k s t h with ⟨_, rfl⟩ | ⟨_, _, rfl⟩ | ⟨_, _, _, ht⟩
  · cases hc
  · cases hc
  · exact ht

/-- The fill in force for the last byte of a window that is not empty stays in `FILL` (41_reorder.md R106). -/
theorem fill_of_extract_completed {s t : State} (h : exec .extract s = .next t) (hc : t.reply = .completed)
    (hlen : 2 ≤ s.length) : t.fill = 0x00FF := by
  obtain rfl := eq_commandEffect_of_completed (k := .extract) h hc
  exact s.fill_extracted_of_two_le hlen

/-- Settles O21: a read is the register's value where R29 allows it and `E_ILLEGAL` where it does not. -/
theorem readReturnsTheRegister : Obligations.ReadReturnsTheRegister := by
  unfold Obligations.ReadReturnsTheRegister
  refine ⟨fun s => ⟨rfl, rfl, rfl, rfl, rfl, rfl, rfl, rfl, rfl, fun hlt => ?_, fun hle => ?_, fun r hr => ?_⟩,
    fun s t r v hs h hv => hs.regRead_lt (regRead_of_exec_rd_value h hv), fun aw r => rfl,
    fun s => exec_rd_of_regRead rfl, fun s t h hc hlen => ?_⟩
  · apply exec_rd_of_regRead
    rw [State.regRead, s.bufData_of_lt hlt]
  · apply exec_rd_of_regRead
    rw [State.regRead, s.bufData_of_length_le hle]
    rfl
  · have hunreadable : ∀ r ∈ [Reg.cmd, .undef11, .undef12, .undef13, .undef14, .undef15], r.readable = false := by
      decide
    exact exec_rd_of_unreadable s (hunreadable r hr)
  · apply exec_rd_of_regRead
    rw [State.regRead, fill_of_extract_completed h hc hlen]
    rfl

end Sys2Proof.Machine
end

section
/-! PROOF. The reorder engine: the loop's bytes are the window's byte stream (41_reorder.md R103, R104), the fill it
leaves (R106), and with them `EXTRACT` on a valid window and on any other (R100, R101). -/

namespace Sys2Proof.Machine

namespace State

variable (s : State)

/-- Three bytes on in the stream is one pair on in the image (R103). -/
theorem windowByte_three_add (a j : Nat) : s.windowByte a (3 + j) = s.windowByte (a + 2) j := by
  have hmod : (3 + j) % 3 = j % 3 := by omega
  have haddr : a + 2 * ((3 + j) / 3) = a + 2 + 2 * (j / 3) := by omega
  rw [windowByte, windowByte, hmod, haddr]

/-- The first three bytes of the stream are the group of the first pair (R103). -/
theorem map_windowByte_range_three (a : Nat) : (List.range 3).map (s.windowByte a) = s.pairGroup a := rfl

/-- The groups the loop appends pair by pair are the byte stream read by position (R104). -/
theorem pairGroups_eq_map_windowByte (n a : Nat) :
    s.pairGroups n a = (List.range (3 * n)).map (s.windowByte a) := by
  induction n generalizing a with
  | zero => rfl
  | succ n ih =>
    have hshift : s.windowByte a ∘ (3 + ·) = s.windowByte (a + 2) := funext (s.windowByte_three_add a)
    calc s.pairGroups (n + 1) a
        = s.pairGroup a ++ (List.range (3 * n)).map (s.windowByte (a + 2)) := by rw [pairGroups, ih]
      _ = (List.range (3 + 3 * n)).map (s.windowByte a) := by
        rw [List.range_add, List.map_append, List.map_map, hshift, map_windowByte_range_three]
      _ = (List.range (3 * (n + 1))).map (s.windowByte a) := by rw [Nat.mul_succ, Nat.add_comm]

/-- On whole pairs the loop gives the window's `len + len/2` bytes (R105). -/
theorem pairGroups_eq_windowBytes {len : Nat} (heven : len % 2 = 0) (base : Nat) :
    s.pairGroups (len / 2) base = s.windowBytes base len := by
  have hsize : 3 * (len / 2) = len + len / 2 := by omega
  rw [pairGroups_eq_map_windowByte, hsize, windowBytes]

/-- On whole pairs the loop leaves everything but `FILL` alone (R106). -/
theorem extracted_eq {len : Nat} (heven : len % 2 = 0) : s.extracted len = { s with fill := s.fillAfter len } := by
  by_cases hempty : len = 0
  · subst hempty
    rfl
  · rw [extracted, fillAfter, if_neg (by omega), if_neg hempty]
    rfl

/-- What `EXTRACT` leaves, with the byte stream and the fill as the rules say them (R100). -/
theorem commandEffect_extract (heven : s.length % 2 = 0) :
    s.commandEffect .extract =
      { s with buf := s.windowBytes s.start s.length, fill := s.fillAfter s.length,
               status := s.status ||| 0x0001, reply := .completed } := by
  rw [commandEffect, pairGroups_eq_windowBytes s heven, extracted_eq s heven]
  rfl

/-- In a legal state a valid window lies in the address space, as it ends at `MAXADDR` at the latest. -/
theorem Inv.window_in_space {s : State} (hs : s.Inv) (hV : s.checkWindow s.start s.length = []) :
    s.start + s.length ≤ 2 ^ s.par.aw := by
  obtain ⟨-, -, hend⟩ := (checkWindow_eq_nil s _ _).mp hV
  exact hend.trans hs.maxAddress_lt.le

end State

/-- Settles O28: the loop's bytes are the byte stream on a valid window, and the checks answer on any other. -/
theorem extractFillsTheBufferFromTheWindow : Obligations.ExtractFillsTheBufferFromTheWindow := by
  unfold Obligations.ExtractFillsTheBufferFromTheWindow
  refine ⟨fun s hs herr hstart hlen hend => ?_, fun s herr hV => ?_, decodeCommand_word .extract, fun s hmem => ?_⟩
  · have hV : s.checkWindow s.start s.length = [] := (checkWindow_eq_nil s _ _).mpr ⟨hstart, hlen, hend⟩
    have hrun := execCommand_of_ok .extract s herr hV (hs.window_in_space hV)
    rwa [s.commandEffect_extract hlen] at hrun
  · exact execCommand_of_checks .extract s herr hV
  · rw [← s.pairGroups_eq_windowBytes (len := 6) rfl]
    simp only [State.pairGroups, State.pairGroup, State.readFb, hmem]
    rfl

/-- Settles O29: the causes of the set one by one, and `MAXADDR` as all that is read of the state. -/
theorem checkWindowIsTheSetOfViolatedConstraints : Obligations.CheckWindowIsTheSetOfViolatedConstraints := by
  unfold Obligations.CheckWindowIsTheSetOfViolatedConstraints
  refine ⟨mem_checkWindow, fun s t base len hmax => ?_⟩
  rw [State.checkWindow, State.checkWindow, hmax]

end Sys2Proof.Machine
end

section
/-! PROOF. The CRC commands: none has a check, so outside the error state each completes with its value in `CRC`
(42_crc.md R128, R129, R130). -/

namespace Sys2Proof

/-- The word of `CRCBYTE b` as the sum that R129 writes. -/
theorem word_crcByte_eq_add (b : Byte) : (Command.crcByte b).word = 0x6000#16 + b.setWidth 16 := by
  apply BitVec.eq_of_toNat_eq
  have hb := b.isLt
  rw [toNat_word_crcByte, BitVec.toNat_add, BitVec.toNat_setWidth, BitVec.toNat_ofNat]
  omega

namespace Machine

/-- `CrcByte` is the loop of R122: `CrcBit` over the message bits, bit 7 first. -/
theorem crcByte_eq_foldl_crcBit (c : Word) (b : Byte) :
    crcByte c b = (List.range 8).foldl (fun c k => crcBit c (b.getLsbD (7 - k))) c := rfl

theorem crc16_nil : crc16 [] = 0xFFFF := rfl

/-- The checksum of the buffer of the source's example (95_test_vectors.md section 2.3). -/
theorem crc16_exampleBuffer : crc16 [0x22, 0x11, 0x11, 0x44, 0x33, 0x33, 0x66, 0x55, 0x55] = 0xFCFC := by
  decide +kernel

theorem exec_crcInit_of_ok {s : State} (h : s.err = false) :
    exec .crcInit s = .next { s with crc := 0xFFFF, status := s.status ||| 0x0001, reply := .completed } :=
  execCommand_of_ok .crcInit s h rfl trivial

theorem exec_crcByte_of_ok {s : State} (b : Byte) (h : s.err = false) :
    exec (.crcByte b) s = .next
      { s with crc := crcByte s.crc b, status := s.status ||| 0x0001, reply := .completed } :=
  execCommand_of_ok (.crcByte b) s h rfl trivial

theorem exec_checksum_of_ok {s : State} (h : s.err = false) :
    exec .checksum s = .next { s with crc := crc16 s.buf, status := s.status ||| 0x0001, reply := .completed } :=
  execCommand_of_ok .checksum s h rfl trivial

/-- Settles O40: `CRCINIT` completes with the initial value in `CRC`. -/
theorem crcInitLoadsTheInitialValue : Obligations.CrcInitLoadsTheInitialValue := by
  unfold Obligations.CrcInitLoadsTheInitialValue
  exact ⟨fun s herr => exec_crcInit_of_ok herr, decodeCommand_word .crcInit⟩

/-- Settles O41: `CRCBYTE` completes with `CrcByte` of `CRC`, which is the loop over the bits from bit 7 down. -/
theorem crcByteShiftsInOneByte : Obligations.CrcByteShiftsInOneByte := by
  unfold Obligations.CrcByteShiftsInOneByte
  refine ⟨fun s b herr => ?_, fun b => ?_, by decide, by decide⟩
  · rw [exec_crcByte_of_ok b herr, crcByte_eq_foldl_crcBit]
  · rw [← word_crcByte_eq_add, decodeCommand_word]

/-- Settles O42: `CHECKSUM` completes with `Crc16` of `BUF`, the fold of `CrcByte` from `0xFFFF`. -/
theorem checksumIsTheCrcOfTheBuffer : Obligations.ChecksumIsTheCrcOfTheBuffer := by
  unfold Obligations.ChecksumIsTheCrcOfTheBuffer
  refine ⟨fun s herr => exec_checksum_of_ok herr, fun s herr hempty => ?_, decodeCommand_word .checksum,
    crc16_exampleBuffer⟩
  rw [exec_checksum_of_ok herr, hempty, crc16_nil]

end Machine

end Sys2Proof
end

section
/-! PROOF. The write-back stage: what `Patch` stores and leaves alone (43_patch.md R141, R145), the set `CheckPatch`
(R143), and with them `PATCH` at an even and at an odd `CRCADDR` (R140). -/

namespace Sys2Proof.Machine

/-! ### The two slots -/

namespace State

variable (s : State)

/-- The two stored words as remainders (R141). -/
theorem patch_eq (A R : Nat) :
    s.patch A R =
      (s.imgWrite A (BitVec.ofNat 16 (R % 2 ^ 16))).imgWrite (A + 1) (BitVec.ofNat 16 (R / 2 ^ 16 % 2 ^ 8)) := by
  rw [patch, Nat.shiftRight_eq_div_pow, ← Nat.and_two_pow_sub_one_eq_mod R,
    ← Nat.and_two_pow_sub_one_eq_mod (R / 2 ^ 16)]

theorem patch_lookup_first (A R : Nat) :
    Memory.lookup (s.patch A R).mem A = some (BitVec.ofNat 16 (R % 2 ^ 16)) := by
  rw [patch_eq, imgWrite_lookup, if_neg A.succ_ne_self.symm, imgWrite_lookup, if_pos rfl]

theorem patch_lookup_second (A R : Nat) :
    Memory.lookup (s.patch A R).mem (A + 1) = some (BitVec.ofNat 16 (R / 2 ^ 16 % 2 ^ 8)) := by
  rw [patch_eq, imgWrite_lookup, if_pos rfl]

theorem patch_lookup_of_ne (A R : Nat) {a : Nat} (hfirst : a ≠ A) (hsecond : a ≠ A + 1) :
    Memory.lookup (s.patch A R).mem a = Memory.lookup s.mem a := by
  rw [patch_eq, imgWrite_lookup, if_neg hsecond, imgWrite_lookup, if_neg hfirst]

/-- The image is the only field `Patch` touches (R145). -/
theorem patch_frame (A R : Nat) : s.patch A R = { s with mem := (s.patch A R).mem } := rfl

/-- The value a write-back stores is the checksum, so the first slot holds `CRC` (R140). -/
theorem patch_patchValue_lookup_first (A : Nat) : Memory.lookup (s.patch A s.patchValue).mem A = some s.crc := by
  rw [patch_lookup_first, Nat.mod_eq_of_lt s.patchValue_lt, patchValue_eq, BitVec.ofNat_toNat, BitVec.setWidth_eq]

/-- The value a write-back stores has 16 bits, so nothing is left for the second slot (R141). -/
theorem patch_patchValue_lookup_second (A : Nat) :
    Memory.lookup (s.patch A s.patchValue).mem (A + 1) = some 0x0000 := by
  rw [patch_lookup_second, Nat.div_eq_of_lt s.patchValue_lt]
  rfl

end State

/-! ### The checks -/

theorem mem_violated (p : Bool) (e e' : Cause) : e' ∈ violated p e ↔ e' = e ∧ p = true := by
  rw [violated]
  split <;> simp [*]

theorem mem_checkCrcAddr (A : Nat) (e : Cause) : e ∈ checkCrcAddr A ↔ e = .crcAddrOdd ∧ A % 2 = 1 := by
  rw [checkCrcAddr, mem_violated, beq_iff_eq]

theorem mem_checkResult (R : Nat) (e : Cause) : e ∈ checkResult R ↔ e = .resultRange ∧ 2 ^ 20 ≤ R := by
  rw [checkResult, mem_violated, decide_eq_true_eq, patchGuard]

/-- The constraints of the write-back, one by one (R143). -/
theorem mem_checkPatch (A R : Nat) (e : Cause) :
    e ∈ checkPatch A R ↔ (e = .crcAddrOdd ∧ A % 2 = 1) ∨ (e = .resultRange ∧ 2 ^ 20 ≤ R) := by
  rw [checkPatch, List.mem_append, mem_checkCrcAddr, mem_checkResult]

theorem checkCrcAddr_of_odd {A : Nat} (h : A % 2 = 1) : checkCrcAddr A = [.crcAddrOdd] := by
  rw [checkCrcAddr, h]
  rfl

/-- The guard passes, so `PATCH` checks the address alone (R142). -/
theorem State.commandChecks_patch (s : State) : s.commandChecks .patch = checkCrcAddr s.crcAddr := by
  rw [commandChecks, checkPatch, checkResult_of_lt _ s.patchValue_lt, List.append_nil]

/-- `2^aw` is even, so an even address below it has a successor below it (R143). -/
theorem succ_lt_two_pow_of_even {aw A : Nat} (haw : 2 ≤ aw) (hA : A < 2 ^ aw) (heven : A % 2 = 0) :
    A + 1 < 2 ^ aw := by
  have hpow : 2 ∣ 2 ^ aw := dvd_pow_self 2 (by omega)
  omega

/-- `E_CRCADDR_ODD` as numbers. -/
theorem Status.raise_crcAddrOdd (w : Word) : Status.raise [.crcAddrOdd] w = (w ||| 0x0802) &&& 0xFFFE := by
  simp only [raise, BitVec.or_assoc]
  rfl

/-! ### The command -/

/-- In a legal state an even `CRCADDR` leaves room for both slots (R143). -/
theorem State.Inv.patch_in_space {s : State} (hs : s.Inv) (heven : s.crcAddr % 2 = 0) :
    s.commandInSpace .patch :=
  succ_lt_two_pow_of_even hs.two_le_aw hs.crcAddr_lt heven

theorem exec_patch_of_even {s : State} (hs : s.Inv) (herr : s.err = false) (heven : s.crcAddr % 2 = 0) :
    exec .patch s = .next (s.patch s.crcAddr s.patchValue).completeCommand :=
  have hV : s.commandChecks .patch = [] := s.commandChecks_patch.trans ((checkCrcAddr_eq_nil _).mpr heven)
  execCommand_of_ok .patch s herr hV (hs.patch_in_space heven)

theorem exec_patch_of_odd {s : State} (herr : s.err = false) (hodd : s.crcAddr % 2 = 1) :
    exec .patch s = .next { s with status := (s.status ||| 0x0802) &&& 0xFFFE, reply := .failed } := by
  have hV : s.commandChecks .patch = [.crcAddrOdd] := s.commandChecks_patch.trans (checkCrcAddr_of_odd hodd)
  have hrun := execCommand_of_checks .patch s herr (by simp [hV])
  rwa [hV, State.fail_eq, Status.raise_crcAddrOdd] at hrun

/-- Settles O44: with an even `CRCADDR` the checks pass and `Patch` is all the command does; with an odd one the
check of the address fails. -/
theorem patchStoresTheChecksum : Obligations.PatchStoresTheChecksum := by
  unfold Obligations.PatchStoresTheChecksum
  refine ⟨fun s hs herr heven => ⟨_, exec_patch_of_even hs herr heven, ?_⟩,
    fun _ => exec_patch_of_odd, decodeCommand_word .patch⟩
  exact ⟨s.patch_patchValue_lookup_first _, s.patch_patchValue_lookup_second _,
    fun _ => s.patch_lookup_of_ne _ _, rfl⟩

/-- Settles O46: the two stores of `Patch`, and the bits of the value that reach the second one. -/
theorem patchWritesExactlyTwoSlots : Obligations.PatchWritesExactlyTwoSlots := by
  unfold Obligations.PatchWritesExactlyTwoSlots
  refine ⟨fun s A R => ?_, State.patch_patchValue_lookup_second⟩
  exact ⟨s.patch_lookup_first A R, s.patch_lookup_second A R,
    fun _ => s.patch_lookup_of_ne A R, s.patch_frame A R, fun hguard => by omega⟩

/-- Settles O47: the causes of the set one by one; an address it does not call odd is even. -/
theorem checkPatchIsTheSetOfViolatedConstraints : Obligations.CheckPatchIsTheSetOfViolatedConstraints := by
  unfold Obligations.CheckPatchIsTheSetOfViolatedConstraints
  refine ⟨mem_checkPatch, fun aw A R haw hA hnot => succ_lt_two_pow_of_even haw hA ?_⟩
  have hodd : ¬A % 2 = 1 := fun hodd => hnot ((mem_checkPatch A R _).mpr (.inl ⟨rfl, hodd⟩))
  omega

end Sys2Proof.Machine
end

section
/-! PROOF. The sequencer: what a completed `RUN` leaves (44_run.md R150, R154), that the reset operands are valid,
and with them `RUN` on valid operands, on any other, and right after reset. -/

namespace Sys2Proof.Machine

namespace State

variable (s : State)

/-- The state between the checksum and the write-back of `RUN` (R150 lines 3 and 4): the window's byte stream and its
checksum, with the image still as it was (R154). -/
def checksummed : State :=
  { s with buf := s.windowBytes s.start s.length, crc := crc16 (s.windowBytes s.start s.length),
           fill := s.fillAfter s.length }

/-- On whole pairs `RUN` is the write-back of the checksum of the old image, and nothing else (R150). -/
theorem commandEffect_run (heven : s.length % 2 = 0) :
    s.commandEffect .run = (s.checksummed.patch s.crcAddr s.checksummed.patchValue).completeCommand := by
  simp only [commandEffect, pairGroups_eq_windowBytes s heven, extracted_eq s heven]
  rfl

theorem commandEffect_run_lookup_first (heven : s.length % 2 = 0) :
    Memory.lookup (s.commandEffect .run).mem s.crcAddr = some (crc16 (s.windowBytes s.start s.length)) := by
  rw [commandEffect_run s heven]
  exact s.checksummed.patch_patchValue_lookup_first s.crcAddr

theorem commandEffect_run_lookup_second (heven : s.length % 2 = 0) :
    Memory.lookup (s.commandEffect .run).mem (s.crcAddr + 1) = some 0x0000 := by
  rw [commandEffect_run s heven]
  exact s.checksummed.patch_patchValue_lookup_second s.crcAddr

theorem commandEffect_run_lookup_of_ne (heven : s.length % 2 = 0) {a : Nat} (hfirst : a ≠ s.crcAddr)
    (hsecond : a ≠ s.crcAddr + 1) :
    Memory.lookup (s.commandEffect .run).mem a = Memory.lookup s.mem a := by
  rw [commandEffect_run s heven]
  exact s.checksummed.patch_lookup_of_ne _ _ hfirst hsecond

/-- Beside the image, `RUN` writes `BUF`, `CRC`, `FILL`, `DONE` and the reply. -/
theorem commandEffect_run_frame (heven : s.length % 2 = 0) :
    s.commandEffect .run =
      { s with mem := (s.commandEffect .run).mem, buf := s.windowBytes s.start s.length,
               crc := crc16 (s.windowBytes s.start s.length), fill := s.fillAfter s.length,
               status := s.status ||| 0x0001, reply := .completed } := by
  rw [commandEffect_run s heven]
  rfl

/-- Operands with no violated constraint (R152). -/
theorem checkRun_eq_nil (start len crcAddr : Nat) :
    s.checkRun start len crcAddr = [] ↔
      (start % 2 = 0 ∧ len % 2 = 0 ∧ start + len ≤ s.maxAddress) ∧ crcAddr % 2 = 0 := by
  rw [checkRun, List.append_eq_nil_iff, checkWindow_eq_nil, checkCrcAddr_eq_nil]

/-- In a legal state valid operands of `RUN` name slots of the address space only (R62). -/
theorem Inv.run_in_space {s : State} (hs : s.Inv) (hV : s.checkRun s.start s.length s.crcAddr = []) :
    s.commandInSpace .run := by
  obtain ⟨hwindow, heven⟩ := (checkRun_eq_nil s _ _ _).mp hV
  exact ⟨hs.window_in_space ((checkWindow_eq_nil s _ _).mpr hwindow), hs.patch_in_space heven⟩

/-- Reset leads from a legal state to a legal state (R33). -/
theorem Inv.applyReset {s : State} (hs : s.Inv) : s.applyReset.Inv where
  two_le_aw := hs.two_le_aw
  image_wf := hs.image_wf
  maxAddress_lt := hs.maxAddress_lt
  start_lt := Nat.two_pow_pos _
  length_lt := Nat.two_pow_pos _
  crcAddr_lt := Nat.two_pow_pos _
  bufPtr_lt := Nat.two_pow_pos _
  buf_groups := rfl
  buf_le := Nat.zero_le _
  status_reserved := BitVec.zero_and
  not_done_and_err := by simp [State.applyReset, Status.done]
  err_iff_cause := by simp [State.applyReset, Status.err, Status.cause]

theorem applyReset_err : s.applyReset.err = false := by simp [err, Status.err, applyReset]

/-- The operands that reset loads are valid whatever `MAXADDR` is: an empty window at 0, and an even `CRCADDR`. -/
theorem checkRun_applyReset :
    s.applyReset.checkRun s.applyReset.start s.applyReset.length s.applyReset.crcAddr = [] :=
  (checkRun_eq_nil _ _ _ _).mpr ⟨⟨rfl, rfl, Nat.zero_le _⟩, rfl⟩

end State

theorem exec_run_of_valid {s : State} (hs : s.Inv) (herr : s.err = false)
    (hV : s.checkRun s.start s.length s.crcAddr = []) : exec .run s = .next (s.commandEffect .run) :=
  execCommand_of_ok .run s herr hV (hs.run_in_space hV)

theorem State.windowBytes_zero (s : State) (base : Nat) : s.windowBytes base 0 = [] := rfl

/-- After reset the window is empty, and the checksum of no bytes is the initial value (R124). -/
theorem crc16_windowBytes_applyReset (s : State) :
    crc16 (s.applyReset.windowBytes s.applyReset.start s.applyReset.length) = 0xFFFF :=
  (congrArg crc16 (s.applyReset.windowBytes_zero 0)).trans crc16_nil

/-- The checksum of the source's example image (95_test_vectors.md section 2.3). -/
theorem crc16_windowBytes_example {s : State}
    (hmem : s.mem = [(0, 0x1111), (1, 0x2222), (2, 0x3333), (3, 0x4444), (4, 0x5555), (5, 0x6666)]) :
    crc16 (s.windowBytes 0 6) = 0xFCFC := by
  obtain ⟨-, -, -, hexample⟩ := extractFillsTheBufferFromTheWindow
  rw [hexample s hmem, crc16_exampleBuffer]

/-- Settles O49: `RUN` completes with its effect on valid operands, those of reset among them; the checks answer on
any other. -/
theorem runExtractsChecksumsAndPatches : Obligations.RunExtractsChecksumsAndPatches := by
  unfold Obligations.RunExtractsChecksumsAndPatches
  refine ⟨fun s hs herr hstart hlen hend hcrcAddr => ?_, fun s herr hV => execCommand_of_checks .run s herr hV,
    fun s hs => ?_, decodeCommand_word .run, fun s => crc16_windowBytes_example⟩
  · have hV : s.checkRun s.start s.length s.crcAddr = [] :=
      (s.checkRun_eq_nil _ _ _).mpr ⟨⟨hstart, hlen, hend⟩, hcrcAddr⟩
    exact ⟨_, exec_run_of_valid hs herr hV, s.commandEffect_run_lookup_first hlen,
      s.commandEffect_run_lookup_second hlen, fun _ => s.commandEffect_run_lookup_of_ne hlen,
      s.commandEffect_run_frame hlen⟩
  · have hfirst := s.applyReset.commandEffect_run_lookup_first rfl
    rw [crc16_windowBytes_applyReset] at hfirst
    exact ⟨_, exec_run_of_valid hs.applyReset s.applyReset_err s.checkRun_applyReset,
      s.applyReset.commandEffect_reply .run, hfirst,
      s.applyReset.commandEffect_run_lookup_second rfl⟩

end Sys2Proof.Machine
end

section
/-! PROOF. The exceptions: what a failing instruction can raise and what it leaves (60_exceptions.md R160 to R167,
R174), and that the error state refuses all but reads (R168). -/

namespace Sys2Proof.Machine

/-! ### Which causes an instruction can raise (R174) -/

/-- A command finds no constraint violated but those R174 gives it; the guard of `PATCH` never fails (R142). -/
theorem State.commandChecks_subset (s : State) (k : Command) : s.commandChecks k ⊆ commandMayRaise k := by
  intro e he
  cases k with
  | extract =>
    rcases (mem_checkWindow s _ _ e).mp he with ⟨rfl, _⟩ | ⟨rfl, _⟩ | ⟨rfl, _⟩ <;> decide
  | patch =>
    rw [State.commandChecks_patch, mem_checkCrcAddr] at he
    obtain ⟨rfl, _⟩ := he
    decide
  | run =>
    rw [State.commandChecks, State.checkRun, List.mem_append, mem_checkWindow, mem_checkCrcAddr] at he
    rcases he with (⟨rfl, _⟩ | ⟨rfl, _⟩ | ⟨rfl, _⟩) | ⟨rfl, _⟩ <;> decide
  | checksum => cases he
  | crcInit => cases he
  | crcByte b => cases he

theorem mayRaise_of_issues (aw : Nat) {i : Instr} {k : Command} (h : issues i k) :
    mayRaise aw i = commandMayRaise k := by
  obtain rfl | ⟨v, rfl, hv⟩ := h
  · cases k <;> rfl
  · simp only [mayRaise, hv]

theorem mayRaise_rd_of_unreadable (aw : Nat) {r : Reg} (h : r.readable = false) :
    mayRaise aw (.rd r) = [.illegal] := by
  simp [mayRaise, h]

/-- Away from `CMD`, R174 asks of a write what R90 asks: a writable register, and a value it holds. -/
theorem mayRaise_wr_of_ne_cmd (aw : Nat) {r : Reg} (v : Nat) (hr : r ≠ .cmd) :
    mayRaise aw (.wr r v) = if r.writable && valueFits aw r v then [] else [.illegal] := by
  cases r with
  | cmd => exact absurd rfl hr
  | _ => rfl

theorem mayRaise_wr_of_illegalWrite {s : State} {r : Reg} {v : Nat} (h : illegalWrite s r v) :
    mayRaise s.par.aw (.wr r v) = [.illegal] := by
  by_cases hr : r = .cmd
  · subst hr
    have hnone : commandOf v = none := h
    simp only [mayRaise, hnone]
  · rw [illegalWrite, if_neg hr, State.regWrite_eq_none s r v hr] at h
    rw [mayRaise_wr_of_ne_cmd s.par.aw v hr]
    cases hw : r.writable with
    | false => rfl
    | true =>
      have hwide : 2 ^ r.width s.par.aw ≤ v := by simpa [hw] using h
      simp [valueFits, Reg.dataWidth, hw, hwide]

/-- The reply tells a failure from the other outcomes, so the next state is `fail` of causes R174 allows (R166). -/
theorem eq_fail_of_failed {i : Instr} {s t : State} (h : exec i s = .next t) (hf : t.reply = .failed) :
    ∃ V, V ≠ [] ∧ V ⊆ mayRaise s.par.aw i ∧ t = s.fail V := by
  rcases exec_cases i s t h with ⟨_, _, rfl⟩ | ⟨V, hV, ht, hcauses⟩ | ⟨_, _, _, _, rfl⟩ |
    ⟨_, _, _, _, _, _, rfl⟩ | ⟨_, k, _, _, _, rfl⟩
  · cases hf
  · refine ⟨V, hV, ?_, ht⟩
    rcases hcauses with ⟨r, rfl, hr, rfl⟩ | ⟨_, r, v, rfl, hi, rfl⟩ | ⟨_, k, hi, rfl⟩
    · rw [mayRaise_rd_of_unreadable _ ((s.regRead_eq_none r).mp hr)]
      exact List.Subset.refl _
    · rw [mayRaise_wr_of_illegalWrite hi]
      exact List.Subset.refl _
    · rw [mayRaise_of_issues _ hi]
      exact s.commandChecks_subset k
  · cases hf
  · cases hf
  · rw [s.commandEffect_reply k] at hf
    cases hf

/-- Settles O8: a failure is `fail` of causes R174 allows, and `fail` writes each bit of `STATUS` as R166 says. -/
theorem failureChangesOnlyStatus : Obligations.FailureChangesOnlyStatus := by
  unfold Obligations.FailureChangesOnlyStatus
  exact ⟨fun i s t h hf => eq_fail_of_failed h hf,
    fun s V => ⟨s.fail_eq V, Status.raise_bit V s.status⟩⟩

/-! ### The error state (R168) -/

theorem exec_wr_of_err {s : State} (r : Reg) (v : Nat) (h : s.err = true) :
    exec (.wr r v) s = .next { s with reply := .refused } :=
  (execWr_eq r v s).trans (s.asWrite_of_err _ h)

theorem exec_toInstr_of_err {s : State} (k : Command) (h : s.err = true) :
    exec k.toInstr s = .next { s with reply := .refused } :=
  (exec_toInstr k s).trans (execCommand_of_err k s h)

theorem State.regRead_isSome (s : State) (r : Reg) : (s.regRead r).isSome = r.readable := by
  cases r <;> rfl

/-- Settles O9: every write and every command looks at `ERR` first; a read does not look at it. -/
theorem errorStateRefusesEveryWrite : Obligations.ErrorStateRefusesEveryWrite := by
  unfold Obligations.ErrorStateRefusesEveryWrite
  intro s herr
  exact ⟨fun r v => exec_wr_of_err r v herr, exec_toInstr_of_err .extract herr,
    exec_toInstr_of_err .checksum herr, exec_toInstr_of_err .patch herr, exec_toInstr_of_err .run herr,
    exec_toInstr_of_err .crcInit herr, fun b => exec_toInstr_of_err (.crcByte b) herr,
    fun r v hv => exec_rd_of_regRead hv,
    fun r hr => exec_rd_of_unreadable s ((s.regRead_eq_none r).mp hr), s.regRead_isSome⟩

/-! ### All violated constraints at once (R160 to R163, R167) -/

/-- A constraint sets its own bit of `STATUS` when it is violated, and no other. -/
theorem any_bit_violated (p : Bool) (e : Cause) (b : Nat) :
    (violated p e).any (fun e' => e'.bit == b) = (b == e.bit && p) := by
  cases p <;> simp [violated, Bool.beq_comm]

theorem any_bit_checkWindow (s : State) (base len b : Nat) :
    (s.checkWindow base len).any (fun e => e.bit == b) =
      ((b == 8 && base % 2 == 1) || (b == 9 && len % 2 == 1) ||
        (b == 10 && decide (s.maxAddress < base + len))) := by
  simp only [State.checkWindow, List.any_append, any_bit_violated]
  rfl

theorem any_bit_checkCrcAddr (A b : Nat) :
    (checkCrcAddr A).any (fun e => e.bit == b) = (b == 11 && A % 2 == 1) :=
  any_bit_violated _ _ b

theorem any_bit_checkRun (s : State) (start len crcAddr b : Nat) :
    (s.checkRun start len crcAddr).any (fun e => e.bit == b) =
      ((b == 8 && start % 2 == 1) || (b == 9 && len % 2 == 1) ||
        (b == 10 && decide (s.maxAddress < start + len)) || (b == 11 && crcAddr % 2 == 1)) := by
  rw [State.checkRun, List.any_append, any_bit_checkWindow, any_bit_checkCrcAddr]

/-- A command with violated constraints fails: it sets the bits of those in `STATUS`, and writes nothing else. -/
theorem exec_toInstr_of_checks {s : State} (k : Command) (herr : s.err = false) (hV : s.commandChecks k ≠ []) :
    ∃ t, exec k.toInstr s = .next t ∧ t = { s with status := t.status, reply := .failed } ∧
      ∀ b, t.status.getLsbD b =
        if b = 0 then false
        else if b = 1 then true
        else s.status.getLsbD b || (s.commandChecks k).any (fun e => e.bit == b) :=
  ⟨_, (exec_toInstr k s).trans (execCommand_of_checks k s herr hV), s.fail_eq _, Status.raise_bit _ s.status⟩

theorem State.checkWindow_ne_nil (s : State) {base len : Nat}
    (h : base % 2 = 1 ∨ len % 2 = 1 ∨ s.maxAddress < base + len) : s.checkWindow base len ≠ [] := by
  rw [Ne, checkWindow_eq_nil]
  omega

theorem State.checkRun_ne_nil (s : State) {start len crcAddr : Nat}
    (h : start % 2 = 1 ∨ len % 2 = 1 ∨ s.maxAddress < start + len ∨ crcAddr % 2 = 1) :
    s.checkRun start len crcAddr ≠ [] := by
  rw [Ne, State.checkRun_eq_nil]
  omega

/-- Settles O32: each command fails with its own checks, whose bits are those of the violated constraints. -/
theorem everyViolatedConstraintIsReported : Obligations.EveryViolatedConstraintIsReported := by
  unfold Obligations.EveryViolatedConstraintIsReported
  refine fun s herr => ⟨fun hviolated => ?_, fun hodd => ?_, fun hviolated => ?_⟩
  · have hrun := exec_toInstr_of_checks .extract herr (s.checkWindow_ne_nil hviolated)
    simpa only [Command.toInstr, State.commandChecks, any_bit_checkWindow, ← Bool.or_assoc] using hrun
  · have hV : s.commandChecks .patch ≠ [] := by simp [State.commandChecks_patch, checkCrcAddr_of_odd hodd]
    have hrun := exec_toInstr_of_checks .patch herr hV
    simpa only [Command.toInstr, State.commandChecks_patch, any_bit_checkCrcAddr, hodd, beq_self_eq_true,
      Bool.and_true] using hrun
  · have hrun := exec_toInstr_of_checks .run herr (s.checkRun_ne_nil hviolated)
    simpa only [Command.toInstr, State.commandChecks, any_bit_checkRun, ← Bool.or_assoc] using hrun

end Sys2Proof.Machine
end

section
/-! PROOF. The invariant (10_state.md R20, R23, R27; 20_memory.md R50): a rule for each update of the state, and with
them every instruction and every step. -/

namespace Sys2Proof.Machine

/-! ### The laws of `STATUS` (R23, R164) -/

namespace Status

/-- What the invariant says of `STATUS`. -/
structure Lawful (w : Word) : Prop where
  reserved : w &&& 0xD0FC = 0
  not_done_and_err : ¬(done w = true ∧ err w = true)
  err_iff_cause : err w = true ↔ cause w ≠ 0

theorem and_eq_zero_iff (w m : Word) : w &&& m = 0 ↔ ∀ i, m.getLsbD i = true → w.getLsbD i = false := by
  constructor
  · intro h i hm
    simpa [hm] using congrArg (·.getLsbD i) h
  · intro h
    apply BitVec.eq_of_getLsbD_eq
    intro i _
    cases hm : m.getLsbD i with
    | false => simp [hm]
    | true => simp [h i hm]

/-- `CAUSE` is the bits 15:8 of `STATUS`. -/
theorem cause_eq_zero_iff (w : Word) : cause w = 0 ↔ ∀ i, 8 ≤ i → w.getLsbD i = false := by
  have hbit : ∀ i, (cause w).getLsbD i = (decide (i ≤ 7) && w.getLsbD (8 + i)) := by simp [cause]
  constructor
  · intro h i hi
    by_cases hlt : i < 16
    · have hzero := hbit (i - 8)
      rw [h, Nat.add_sub_cancel' hi] at hzero
      simpa [show i - 8 ≤ 7 by omega] using hzero.symm
    · exact BitVec.getLsbD_of_ge w i (by omega)
  · intro h
    apply BitVec.eq_of_getLsbD_eq
    intro i _
    rw [hbit, h (8 + i) (by omega)]
    simp

theorem cause_ne_zero_iff (w : Word) : cause w ≠ 0 ↔ ∃ i, 8 ≤ i ∧ w.getLsbD i = true := by
  rw [Ne, cause_eq_zero_iff]
  push Not
  simp

/-- The bits that read 0 lie outside `DONE`, `ERR` and the causes that are ever raised. -/
theorem reserved_bit {i : Nat} (h : (0xD0FC#16).getLsbD i = true) :
    i ≠ 0 ∧ i ≠ 1 ∧ ∀ e : Cause, e ≠ .resultRange → e.bit ≠ i := by
  have hall : ∀ i : Fin 16, (0xD0FC#16).getLsbD i = true →
      i.val ≠ 0 ∧ i.val ≠ 1 ∧ ∀ e ∈ [Cause.startOdd, .lenOdd, .range, .crcAddrOdd, .illegal], e.bit ≠ i.val := by
    decide
  obtain ⟨h0, h1, hcause⟩ := hall ⟨i, BitVec.lt_of_getLsbD h⟩ h
  exact ⟨h0, h1, fun e he => hcause e (by cases e <;> simp at he ⊢)⟩

theorem eight_le_bit (e : Cause) : 8 ≤ e.bit := by cases e <;> decide

/-- Every bit of `STATUS` after a command completes (R23). -/
theorem setDone_bit (w : Word) (i : Nat) : (w ||| 0x0001).getLsbD i = (decide (i = 0) || w.getLsbD i) := by
  by_cases hi : i = 0 <;> simp [hi, Bool.or_comm]

/-- Completing a command outside the error state keeps the laws. -/
theorem Lawful.setDone {w : Word} (hw : Lawful w) (herr : err w = false) : Lawful (w ||| 0x0001) := by
  have herr' : err (w ||| 0x0001) = false := (setDone_bit w 1).trans herr
  have hok : ¬err (w ||| 0x0001) = true := ne_true_of_eq_false herr'
  refine ⟨?_, fun h => hok h.2, ?_⟩
  · rw [and_eq_zero_iff]
    intro i hi
    rw [setDone_bit, (and_eq_zero_iff w _).mp hw.reserved i hi]
    simpa using (reserved_bit hi).1
  · have hcause : cause w = 0 := by simpa [herr] using hw.err_iff_cause
    rw [cause_eq_zero_iff] at hcause
    have hcause' : cause (w ||| 0x0001) = 0 := by
      rw [cause_eq_zero_iff]
      intro i hi
      rw [setDone_bit, hcause i hi]
      simp [show i ≠ 0 by omega]
    exact iff_of_false hok (not_not.mpr hcause')

/-- Raising causes keeps the laws, `E_RESULT_RANGE` aside. -/
theorem Lawful.raise {w : Word} (hw : Lawful w) {V : List Cause} (hne : V ≠ []) (hV : .resultRange ∉ V) :
    Lawful (raise V w) := by
  have herr : err (Status.raise V w) = true := raise_bit V w 1
  have hdone : done (Status.raise V w) = false := raise_bit V w 0
  refine ⟨?_, ?_, ?_⟩
  · rw [and_eq_zero_iff]
    intro i hi
    obtain ⟨h0, h1, hcause⟩ := reserved_bit hi
    rw [raise_bit, if_neg h0, if_neg h1, (and_eq_zero_iff w _).mp hw.reserved i hi, Bool.false_or, List.any_eq_false]
    intro e he hbit
    exact hcause e (fun h => hV (h ▸ he)) (by simpa using hbit)
  · exact fun h => ne_true_of_eq_false hdone h.1
  · obtain ⟨e, he⟩ := List.exists_mem_of_ne_nil V hne
    have h8 := eight_le_bit e
    have hcause : cause (Status.raise V w) ≠ 0 := by
      rw [cause_ne_zero_iff]
      refine ⟨e.bit, h8, ?_⟩
      rw [raise_bit, if_neg (by omega), if_neg (by omega), List.any_eq_true.mpr ⟨e, he, by simp⟩, Bool.or_true]
    exact iff_of_true herr hcause

end Status

/-! ### One rule for each update of the state -/

namespace State.Inv

variable {s : State} (hs : s.Inv)
include hs

theorem lawful : Status.Lawful s.status := ⟨hs.status_reserved, hs.not_done_and_err, hs.err_iff_cause⟩

theorem withMem {m : Memory} (hm : Memory.wf s.par.aw m = true) : (s.withMem m).Inv := { hs with image_wf := hm }

theorem withFill (f : Word) : (s.withFill f).Inv := { hs with }

theorem withStart {a : Nat} (ha : a < 2 ^ s.par.aw) : (s.withStart a).Inv := { hs with start_lt := ha }

theorem withLength {n : Nat} (hn : n < 2 ^ s.par.aw) : (s.withLength n).Inv := { hs with length_lt := hn }

theorem withCrcAddr {a : Nat} (ha : a < 2 ^ s.par.aw) : (s.withCrcAddr a).Inv := { hs with crcAddr_lt := ha }

theorem withBufPtr {p : Nat} (hp : p < 2 ^ (s.par.aw + 1)) : (s.withBufPtr p).Inv := { hs with bufPtr_lt := hp }

theorem withBuf {b : List Byte} (hgroups : b.length % 3 = 0) (hle : b.length ≤ 3 * (2 ^ s.par.aw - 2) / 2) :
    (s.withBuf b).Inv := { hs with buf_groups := hgroups, buf_le := hle }

theorem withCrc (c : Word) : (s.withCrc c).Inv := { hs with }

theorem withStatus {w : Word} (hw : Status.Lawful w) : (s.withStatus w).Inv :=
  { hs with
    status_reserved := hw.reserved, not_done_and_err := hw.not_done_and_err, err_iff_cause := hw.err_iff_cause }

theorem withEvents (es : List HostEvent) : (s.withEvents es).Inv := { hs with }

theorem withReply (r : Reply) : (s.withReply r).Inv := { hs with }

theorem fail {V : List Cause} (hne : V ≠ []) (hV : .resultRange ∉ V) : (s.fail V).Inv :=
  (hs.withStatus (hs.lawful.raise hne hV)).withReply .failed

theorem completeCommand (herr : s.err = false) : s.completeCommand.Inv :=
  (hs.withStatus (hs.lawful.setDone herr)).withReply .completed

theorem imgWrite {a : Nat} (ha : a < 2 ^ s.par.aw) (v : Word) : (s.imgWrite a v).Inv :=
  hs.withMem (Memory.wf_store _ _ a v hs.image_wf ha)

theorem patch {A : Nat} (hA : A + 2 ≤ 2 ^ s.par.aw) (R : Nat) : (s.patch A R).Inv :=
  (hs.imgWrite (by omega) _).imgWrite (a := A + 1) hA _

theorem extracted (n : Nat) : (s.extracted n).Inv := by
  unfold State.extracted
  split
  · exact hs
  · exact hs.withFill fillLo

/-- An even window that ends at `MAXADDR` at the latest gives no more bytes than `BUF` holds (R27). -/
theorem length_pairGroups_le (hV : s.checkWindow s.start s.length = []) (t : State) (a : Nat) :
    (t.pairGroups (s.length / 2) a).length ≤ 3 * (2 ^ s.par.aw - 2) / 2 := by
  obtain ⟨-, hlen, hend⟩ := (checkWindow_eq_nil s _ _).mp hV
  have heven : 2 ∣ 2 ^ s.par.aw := dvd_pow_self 2 (by have := hs.two_le_aw; omega)
  have hmax := hs.maxAddress_lt
  rw [pairGroups_length]
  omega

theorem withBuf_pairGroups {t : State} (ht : t.Inv) (hpar : t.par = s.par)
    (hV : s.checkWindow s.start s.length = []) (a : Nat) :
    (t.withBuf (s.pairGroups (s.length / 2) a)).Inv :=
  ht.withBuf (by rw [pairGroups_length]; omega) (by rw [hpar]; exact hs.length_pairGroups_le hV s a)

/-- A write that stores its value keeps the invariant: the value fits the register. -/
theorem regWrite {r : Reg} {v : Nat} {s' : State} (h : s.regWrite r v = some s') : s'.Inv := by
  unfold State.regWrite at h
  split at h
  · cases h
  · next hfits =>
    rw [not_le] at hfits
    cases r <;> cases h
    case start => exact hs.withStart hfits
    case length => exact hs.withLength hfits
    case crcAddr => exact hs.withCrcAddr hfits
    case fill => exact hs.withFill _
    case bufPtr => exact hs.withBufPtr hfits

/-- A command that completes keeps the invariant. -/
theorem commandEffect (k : Command) (herr : s.err = false) (hV : s.commandChecks k = [])
    (hspace : s.commandInSpace k) : (s.commandEffect k).Inv := by
  cases k with
  | extract =>
    exact (hs.withBuf_pairGroups (hs.extracted _) (s.extracted_par _) hV s.start).completeCommand
      (by simpa [State.err] using herr)
  | checksum => exact (hs.withCrc _).completeCommand herr
  | patch => exact (hs.patch hspace _).completeCommand herr
  | run =>
    have hwindow : s.checkWindow s.start s.length = [] := (List.append_eq_nil_iff.mp hV).1
    have hsum := ((hs.withBuf_pairGroups (hs.extracted s.length) (s.extracted_par _) hwindow s.start).withCrc
      (crc16 (s.pairGroups (s.length / 2) s.start)))
    refine (hsum.patch ?_ _).completeCommand ?_
    · simpa using hspace.2
    · simpa [State.err, State.patch, State.imgWrite] using herr
  | crcInit => exact (hs.withCrc _).completeCommand herr
  | crcByte b => exact (hs.withCrc _).completeCommand herr

end State.Inv

/-! ### Instructions and steps -/

/-- The guard of `PATCH` and `RUN` never fails, so no row of R174 has its cause (R164). -/
theorem resultRange_notMem_mayRaise (aw : Nat) (i : Instr) : .resultRange ∉ mayRaise aw i := by
  have hcommand : ∀ k, .resultRange ∉ commandMayRaise k := by
    intro k
    cases k <;> simp [commandMayRaise]
  cases i with
  | rd r => cases hr : r.readable <;> simp [mayRaise, hr]
  | wr r v =>
    by_cases hr : r = .cmd
    · subst hr
      cases hv : commandOf v with
      | none => simp [mayRaise, hv]
      | some k => simpa [mayRaise, hv] using hcommand k
    · rw [mayRaise_wr_of_ne_cmd aw v hr]
      split <;> simp
  | extract => exact hcommand .extract
  | checksum => exact hcommand .checksum
  | patch => exact hcommand .patch
  | run => exact hcommand .run
  | crcInit => exact hcommand .crcInit
  | crcByte b => exact hcommand (.crcByte b)

/-- Every instruction keeps the invariant. -/
theorem State.Inv.exec {i : Instr} {s t : State} (hs : s.Inv) (h : exec i s = .next t) : t.Inv := by
  rcases exec_cases i s t h with ⟨_, _, rfl⟩ | ⟨V, _, rfl, _⟩ | ⟨_, v, _, _, rfl⟩ |
    ⟨_, _, _, s', _, hs', rfl⟩ | ⟨herr, k, _, hV, hspace, rfl⟩
  · exact hs.withReply .refused
  · obtain ⟨V', hne, hmay, heq⟩ := eq_fail_of_failed h rfl
    rw [heq]
    exact hs.fail hne fun hmem => resultRange_notMem_mayRaise _ i (hmay hmem)
  · exact hs.withReply (.value v)
  · exact (hs.regWrite hs').withReply .completed
  · exact hs.commandEffect k herr hV hspace

theorem State.Inv.malformedHeader {s : State} (hs : s.Inv) (isWrite : Bool) : (s.malformedHeader isWrite).Inv := by
  unfold State.malformedHeader
  split
  · exact hs.withReply .refused
  · exact hs.fail (by simp) (by simp)

/-- Settles O4: waiting changes nothing, and reset, an instruction and a malformed header each keep the invariant. -/
theorem everyStepKeepsTheInvariant : Obligations.EveryStepKeepsTheInvariant := by
  unfold Obligations.EveryStepKeepsTheInvariant
  intro s t hs h
  rcases step_cases s t h with ⟨rfl, _, _⟩ | ⟨rest, _, rfl⟩ | ⟨i, _, hexec⟩ | ⟨w, _, rfl⟩
  · exact hs
  · exact (hs.withEvents rest).applyReset
  · exact (hs.withEvents _).exec hexec
  · exact (hs.withEvents _).malformedHeader w

end Sys2Proof.Machine
end

section
/-! PROOF. The decoder and the encoder are inverse (30_encoding.md R71, R72, R75, R78): bit strings and the numbers they
spell, headers, command words, and with them whole transactions. -/

namespace Sys2Proof

/-! ### Bit strings -/

/-- Two bit strings of one length that spell one number are the same (R71). -/
theorem natOfBits_inj {as bs : List Bool} (hlen : as.length = bs.length) (h : natOfBits as = natOfBits bs) :
    as = bs := by
  induction as generalizing bs with
  | nil => exact (List.length_eq_zero_iff.mp hlen.symm).symm
  | cons a as ih =>
    cases bs with
    | nil => simp at hlen
    | cons b bs =>
      have hlen' : as.length = bs.length := by simpa using hlen
      have ha := natOfBits_lt as
      have hb := natOfBits_lt bs
      rw [natOfBits_cons, natOfBits_cons, hlen'] at h
      rw [hlen'] at ha
      -- The leading bit tells in which half of the range the number lies.
      have hhead : a = b ∧ natOfBits as = natOfBits bs := by
        cases a <;> cases b <;> simp at h ⊢ <;> omega
      rw [hhead.1, ih hlen' hhead.2]

theorem bitsOfNat_natOfBits (bs : List Bool) : bitsOfNat bs.length (natOfBits bs) = bs := by
  apply natOfBits_inj (bitsOfNat_length _ _)
  rw [natOfBits_bitsOfNat, Nat.mod_eq_of_lt (natOfBits_lt bs)]

/-- Only the low `n` bits of a number are spelt. -/
theorem bitsOfNat_mod (n v : Nat) : bitsOfNat n (v % 2 ^ n) = bitsOfNat n v := by
  have h := bitsOfNat_natOfBits (bitsOfNat n v)
  rwa [natOfBits_bitsOfNat, bitsOfNat_length] at h

theorem natOfBits_replicate_false (n : Nat) : natOfBits (List.replicate n false) = 0 := by
  induction n with
  | zero => rfl
  | succ n ih => simp [List.replicate_succ, natOfBits_cons, ih]

/-! ### Headers (R72) -/

theorem index_ofIndex {n : Nat} (h : n < 16) : (Reg.ofIndex n).index = n := by
  have hall : ∀ n : Fin 16, (Reg.ofIndex n).index = n := by decide
  exact hall ⟨n, h⟩

theorem natOfBits_headerBits (w : Bool) (r : Reg) : natOfBits (headerBits w r) = 128 * w.toNat + r.index := by
  cases w <;> cases r <;> rfl

/-- With bits 6:4 zero, `W` and the index make up the header. -/
theorem toNat_of_header_field_eq_zero {h : Byte} (hzero : h.extractLsb 6 4 = 0) :
    h.toNat = 128 * h.msb.toNat + (h.extractLsb 3 0).toNat := by
  have hzero' := congrArg BitVec.toNat hzero
  have hlt := h.isLt
  simp only [BitVec.extractLsb_toNat, Nat.shiftRight_eq_div_pow, BitVec.ofNat_eq_ofNat, BitVec.toNat_ofNat,
    BitVec.msb_eq_decide] at hzero' ⊢
  by_cases hmsb : 128 ≤ h.toNat <;> simp [hmsb] <;> omega

/-- The header that a header which is no malformed one decodes to is its own. -/
theorem toNat_eq_of_decodeHeader {h : Byte} {w : Bool} {r : Reg}
    (hd : decodeHeader h = if w then .wr r else .rd r) : h.toNat = natOfBits (headerBits w r) := by
  have hindex : (h.extractLsb 3 0).toNat < 16 := (h.extractLsb 3 0).isLt
  unfold decodeHeader at hd
  split at hd
  · cases w <;> cases hd
  · next hzero =>
    rw [natOfBits_headerBits, toNat_of_header_field_eq_zero (not_not.mp hzero)]
    split at hd
    · next hmsb =>
      cases w <;> cases hd
      rw [index_ofIndex hindex, hmsb]
    · next hmsb =>
      cases w <;> cases hd
      rw [index_ofIndex hindex, Bool.eq_false_of_not_eq_true hmsb]

theorem eq_headerBits_of_decodeHeader {hd : List Bool} (hlen : hd.length = 8) {w : Bool} {r : Reg}
    (h : decodeHeader (BitVec.ofNat 8 (natOfBits hd)) = if w then .wr r else .rd r) : hd = headerBits w r := by
  apply natOfBits_inj (by simp [hlen])
  have hlt : natOfBits hd < 2 ^ 8 := hlen ▸ natOfBits_lt hd
  rw [← toNat_eq_of_decodeHeader h, BitVec.toNat_ofNat, Nat.mod_eq_of_lt hlt]

theorem ofNat_natOfBits_bitsOfNat (w : Nat) : BitVec.ofNat 8 (natOfBits (bitsOfNat 8 w)) = BitVec.ofNat 8 w := by
  apply BitVec.eq_of_toNat_eq
  rw [natOfBits_bitsOfNat, BitVec.toNat_ofNat, BitVec.toNat_ofNat, Nat.mod_mod]

/-! ### Values written to `CMD` (R73, R74) -/

theorem commandOf_toNat (c : Word) : commandOf c.toNat = decodeCommand c := by
  rw [commandOf, if_pos c.isLt, BitVec.ofNat_toNat, BitVec.setWidth_eq]

theorem commandOf_of_le {v : Nat} (h : 2 ^ 16 ≤ v) : commandOf v = none := if_neg (by omega)

/-- A command is written by the value of its word, and by no other. -/
theorem commandOf_eq_some_iff (v : Nat) (k : Command) : commandOf v = some k ↔ v = k.word.toNat := by
  constructor
  · intro h
    unfold commandOf at h
    split at h
    · next hlt =>
      rw [← word_eq_of_decodeCommand h, BitVec.toNat_ofNat, Nat.mod_eq_of_lt hlt]
    · cases h
  · rintro rfl
    rw [commandOf_toNat, decodeCommand_word]

theorem writeInstr_of_commandOf {v : Nat} {k : Command} (h : commandOf v = some k) :
    writeInstr .cmd v = k.toInstr := by
  simp only [writeInstr, h]

theorem writeInstr_of_ownName {r : Reg} {v : Nat} (h : ownName r v = true) : writeInstr r v = .wr r v := by
  cases r with
  | cmd =>
    have hnone : commandOf v = none := by simpa [ownName] using h
    simp only [writeInstr, hnone]
  | _ => rfl

/-- A write is a command when its value is a command word for `CMD`, and otherwise goes by its own name (R75). -/
theorem writeInstr_cases (r : Reg) (v : Nat) :
    (∃ k : Command, r = .cmd ∧ v = k.word.toNat ∧ writeInstr r v = k.toInstr) ∨
      (ownName r v = true ∧ writeInstr r v = .wr r v) := by
  cases hown : ownName r v with
  | true => exact .inr ⟨rfl, writeInstr_of_ownName hown⟩
  | false =>
    cases r with
    | cmd =>
      obtain ⟨k, hk⟩ : ∃ k, commandOf v = some k := by
        rw [← Option.isSome_iff_exists]
        simpa [ownName] using hown
      exact .inl ⟨k, rfl, (commandOf_eq_some_iff v k).mp hk, writeInstr_of_commandOf hk⟩
    | _ => cases hown

theorem encode_toInstr (aw : Nat) (k : Command) : encode aw k.toInstr = writeBits aw .cmd k.word.toNat := by
  cases k <;> rfl

theorem wf_toInstr (aw : Nat) (k : Command) : k.toInstr.wf aw = true := by cases k <;> rfl

/-- A write whose value fits its data field is well-formed as the instruction that it is (R74). -/
theorem wf_writeInstr {aw : Nat} {r : Reg} {v : Nat} (hv : v < 2 ^ r.dataWidth aw) :
    (writeInstr r v).wf aw = true := by
  rcases writeInstr_cases r v with ⟨k, _, _, hk⟩ | ⟨hown, hwr⟩
  · rw [hk, wf_toInstr]
  · simp [hwr, Instr.wf, valueFits, hv, hown]

theorem encode_writeInstr (aw : Nat) (r : Reg) (v : Nat) : encode aw (writeInstr r v) = writeBits aw r v := by
  rcases writeInstr_cases r v with ⟨k, rfl, rfl, hk⟩ | ⟨_, hwr⟩
  · rw [hk, encode_toInstr]
  · rw [hwr, encode]

/-! ### Whole transactions -/

/-- The encoding has the length the decoder tells from the header (R78). -/
theorem encode_length (aw : Nat) (i : Instr) : (encode aw i).length = i.bitLength aw := by
  cases i with
  | rd r => exact Laws.EncodeLength.rd r aw
  | wr r v => exact Laws.EncodeLength.wr r v aw
  | extract => exact Laws.EncodeLength.extract aw
  | checksum => exact Laws.EncodeLength.checksum aw
  | patch => exact Laws.EncodeLength.patch aw
  | run => exact Laws.EncodeLength.run aw
  | crcInit => exact Laws.EncodeLength.crcInit aw
  | crcByte b => exact Laws.EncodeLength.crcByte b aw

section
variable (aw : Nat) {hd : List Bool} (hlen : hd.length = 8)
include hlen

/-- A malformed header is one whatever follows it. -/
theorem decode_append_of_malformed {w : Bool} (rest : List Bool)
    (h : decodeHeader (BitVec.ofNat 8 (natOfBits hd)) = .malformed w) : decode aw (hd ++ rest) = .malformed w := by
  rw [decode, if_neg (by simp [hlen]), List.take_left' hlen, h]

theorem decode_append_of_rd {r : Reg} (rest : List Bool)
    (h : decodeHeader (BitVec.ofNat 8 (natOfBits hd)) = .rd r) : decode aw (hd ++ rest) = .instr (.rd r) := by
  rw [decode, if_neg (by simp [hlen]), List.take_left' hlen, h]

/-- A write takes the bits of its data field after the header, and no others (R78). -/
theorem decode_append_of_wr {r : Reg} {data : List Bool} (rest : List Bool)
    (h : decodeHeader (BitVec.ofNat 8 (natOfBits hd)) = .wr r) (hdata : data.length = r.dataWidth aw) :
    decode aw (hd ++ (data ++ rest)) = .instr (writeInstr r (natOfBits data)) := by
  rw [decode, if_neg (by simp [hlen]), List.take_left' hlen, h]
  simp only
  rw [if_neg (by simp [hlen, hdata]), List.drop_left' hlen, List.take_left' hdata]

end

theorem decode_rd (aw : Nat) (r : Reg) (rest : List Bool) :
    decode aw (headerBits false r ++ rest) = .instr (.rd r) :=
  decode_append_of_rd aw (headerBits_length _ _) rest (decodeHeader_headerBits false r)

theorem decode_writeBits {aw : Nat} {r : Reg} {v : Nat} (hv : v < 2 ^ r.dataWidth aw) (rest : List Bool) :
    decode aw (writeBits aw r v ++ rest) = .instr (writeInstr r v) := by
  have h := decode_append_of_wr aw (headerBits_length true r) rest (decodeHeader_headerBits true r)
    (bitsOfNat_length (r.dataWidth aw) v)
  rwa [natOfBits_bitsOfNat, Nat.mod_eq_of_lt hv, ← List.append_assoc] at h

theorem decode_command (aw : Nat) (k : Command) (rest : List Bool) :
    decode aw (encode aw k.toInstr ++ rest) = .instr k.toInstr := by
  rw [encode_toInstr, decode_writeBits k.word.isLt,
    writeInstr_of_commandOf ((commandOf_eq_some_iff _ k).mpr rfl)]

/-- Settles O12: a header decodes to what it says, and a data field to its value; a command is its word in `CMD`. -/
theorem decodeOfEncodeIsTheInstruction : Obligations.DecodeOfEncodeIsTheInstruction := by
  unfold Obligations.DecodeOfEncodeIsTheInstruction
  intro aw i rest hwf
  cases i with
  | rd r => exact decode_rd aw r rest
  | wr r v =>
    obtain ⟨hfits, hown⟩ : v < 2 ^ r.dataWidth aw ∧ ownName r v = true := by simpa [Instr.wf, valueFits] using hwf
    rw [encode, decode_writeBits hfits, writeInstr_of_ownName hown]
  | extract => exact decode_command aw .extract rest
  | checksum => exact decode_command aw .checksum rest
  | patch => exact decode_command aw .patch rest
  | run => exact decode_command aw .run rest
  | crcInit => exact decode_command aw .crcInit rest
  | crcByte b => exact decode_command aw (.crcByte b) rest

/-- What decodes to an instruction begins with a read's header, or with a write that is the instruction. -/
theorem decode_instr_cases {aw : Nat} {bits : List Bool} {i : Instr} (h : decode aw bits = .instr i) :
    (∃ r rest, bits = headerBits false r ++ rest ∧ i = .rd r) ∨
    ∃ r v rest, bits = writeBits aw r v ++ rest ∧ v < 2 ^ r.dataWidth aw ∧ i = writeInstr r v := by
  unfold decode at h
  split at h
  · cases h
  next hlen =>
  have hlen8 : (bits.take 8).length = 8 := by rw [List.length_take]; omega
  have hsplit := List.take_append_drop 8 bits
  split at h
  · cases h
  · next r hr =>
    cases h
    rw [eq_headerBits_of_decodeHeader hlen8 (w := false) hr] at hsplit
    exact .inl ⟨r, _, hsplit.symm, rfl⟩
  · next r hr =>
    split at h
    · cases h
    next hdata =>
    cases h
    rw [eq_headerBits_of_decodeHeader hlen8 (w := true) hr] at hsplit
    have hlen' : ((bits.drop 8).take (r.dataWidth aw)).length = r.dataWidth aw := by
      rw [List.length_take, List.length_drop]; omega
    have hlt := natOfBits_lt ((bits.drop 8).take (r.dataWidth aw))
    have hfield := bitsOfNat_natOfBits ((bits.drop 8).take (r.dataWidth aw))
    rw [hlen'] at hlt hfield
    refine .inr ⟨r, _, (bits.drop 8).drop (r.dataWidth aw), ?_, hlt, rfl⟩
    rw [writeBits, hfield, List.append_assoc, List.take_append_drop, hsplit]

/-- Settles O13: a read's header and a write's bits are the encoding of what they decode to. -/
theorem decodedBitsAreTheEncoding : Obligations.DecodedBitsAreTheEncoding := by
  unfold Obligations.DecodedBitsAreTheEncoding
  intro aw bits i h
  obtain ⟨rest, hbits, hwf⟩ : ∃ rest, bits = encode aw i ++ rest ∧ i.wf aw = true := by
    rcases decode_instr_cases h with ⟨r, rest, hbits, rfl⟩ | ⟨r, v, rest, hbits, hv, rfl⟩
    · exact ⟨rest, hbits, rfl⟩
    · exact ⟨rest, by rw [hbits, encode_writeInstr], wf_writeInstr hv⟩
  exact ⟨hwf, by rw [hbits, List.take_left' (encode_length aw i)]⟩

/-- Settles O11: each string is evaluated by the decoder. -/
theorem bitStringsOfTheSpecDecode : Obligations.BitStringsOfTheSpecDecode := by
  unfold Obligations.BitStringsOfTheSpecDecode
  decide

end Sys2Proof
end

section
/-! PROOF. The host's write (40_host_access.md R90): a value that fits is stored, an illegal write fails, and a command
word written to `CMD` executes its command. -/

namespace Sys2Proof.Machine

variable {s : State}

theorem exec_wr_of_regWrite {r : Reg} {v : Nat} {s' : State} (herr : s.err = false) (h : s.regWrite r v = some s') :
    exec (.wr r v) s = .next { s' with reply := .completed } :=
  execWr_of_regWrite r v s s' herr h

/-- Outside the error state a write that R90 does not allow fails `E_ILLEGAL`. -/
theorem exec_wr_of_illegalWrite {r : Reg} {v : Nat} (herr : s.err = false) (h : illegalWrite s r v) :
    exec (.wr r v) s = .next { s with status := (s.status ||| 0x2002) &&& 0xFFFE, reply := .failed } := by
  rw [exec, execWr_eq, s.asWrite_of_ok _ herr, ← Status.raise_illegal]
  by_cases hr : r = .cmd
  · rw [illegalWrite, if_pos hr] at h
    rw [if_pos hr, writeCmd, h, State.fail_eq]
  · rw [illegalWrite, if_neg hr] at h
    rw [if_neg hr, writeReg, h, State.fail_eq]

/-- A value of more than 16 bits is no command word, so the width bounds a write of `CMD` too (R74). -/
theorem illegalWrite_of_unwritable_or_wide {r : Reg} {v : Nat} (h : r.writable = false ∨ 2 ^ r.width s.par.aw ≤ v) :
    illegalWrite s r v := by
  by_cases hr : r = .cmd
  · subst hr
    exact commandOf_of_le (h.resolve_left Bool.noConfusion)
  · rw [illegalWrite, if_neg hr]
    exact (s.regWrite_eq_none r v hr).mpr h

/-- A command word written to `CMD` does what its command does, in the error state too (R73, R92). -/
theorem exec_wr_cmd_of_commandOf {v : Nat} {k : Command} (h : commandOf v = some k) :
    exec (.wr .cmd v) s = exec k.toInstr s := by
  cases herr : s.err with
  | true => rw [exec_wr_of_err .cmd v herr, exec_toInstr_of_err k herr]
  | false =>
    rw [exec_toInstr, exec, execWr_eq, s.asWrite_of_ok _ herr, if_pos rfl, writeCmd, h]

/-- What a write that is stored leaves: the value in the one register, which it fits (R90). -/
theorem State.regWrite_cases {r : Reg} {v : Nat} {s' : State} (h : s.regWrite r v = some s') :
    (r = .start ∧ s' = s.withStart v) ∨ (r = .length ∧ s' = s.withLength v) ∨
    (r = .crcAddr ∧ s' = s.withCrcAddr v) ∨ (r = .fill ∧ s' = s.withFill (BitVec.ofNat 16 v)) ∨
    (r = .bufPtr ∧ s' = s.withBufPtr v) := by
  unfold State.regWrite at h
  split at h
  · cases h
  · cases r <;> cases h <;> simp

theorem State.exists_regWrite {r : Reg} {v : Nat} (hw : r.writable = true) (hr : r ≠ .cmd)
    (hv : v < 2 ^ r.width s.par.aw) : ∃ s', s.regWrite r v = some s' := by
  rw [← Option.ne_none_iff_exists', Ne, s.regWrite_eq_none r v hr]
  simp [hw, hv]

/-- A stored value is what a read then returns (R29). -/
theorem State.regRead_of_regWrite {r : Reg} {v : Nat} {s' : State} (h : s.regWrite r v = some s')
    (hv : v < 2 ^ r.width s.par.aw) : s'.regRead r = some v := by
  rcases State.regWrite_cases h with ⟨rfl, rfl⟩ | ⟨rfl, rfl⟩ | ⟨rfl, rfl⟩ | ⟨rfl, rfl⟩ | ⟨rfl, rfl⟩
  case inr.inr.inr.inl =>
    have hfits : (BitVec.ofNat 16 v).toNat = v := Nat.mod_eq_of_lt hv
    rw [State.regRead, withFill_fill, hfits]
  all_goals rfl

/-- Settles O22: each of the five storing registers takes a value that fits. -/
theorem writeStoresTheValue : Obligations.WriteStoresTheValue := by
  unfold Obligations.WriteStoresTheValue
  intro s v herr
  exact ⟨fun hv => exec_wr_of_regWrite (s' := s.withStart v) herr (if_neg (not_le.mpr hv)),
    fun hv => exec_wr_of_regWrite (s' := s.withLength v) herr (if_neg (not_le.mpr hv)),
    fun hv => exec_wr_of_regWrite (s' := s.withCrcAddr v) herr (if_neg (not_le.mpr hv)),
    fun hv => exec_wr_of_regWrite (s' := s.withFill (BitVec.ofNat 16 v)) herr (if_neg (not_le.mpr hv)),
    fun hv => exec_wr_of_regWrite (s' := s.withBufPtr v) herr (if_neg (not_le.mpr hv))⟩

/-- Settles O23: such a write is illegal, `CMD` included. -/
theorem illegalWriteFails : Obligations.IllegalWriteFails := by
  unfold Obligations.IllegalWriteFails
  exact fun s r v herr h => exec_wr_of_illegalWrite herr (illegalWrite_of_unwritable_or_wide h)

/-- Settles O24: the value of a word is decoded as that word. -/
theorem writeToCmdExecutesTheCommand : Obligations.WriteToCmdExecutesTheCommand := by
  unfold Obligations.WriteToCmdExecutesTheCommand
  intro s c
  rw [← commandOf_toNat]
  exact ⟨fun k hk => exec_wr_cmd_of_commandOf hk, fun hnone herr => exec_wr_of_illegalWrite herr hnone⟩

/-- Settles O25: a value that fits is stored, and the register it went to returns it. -/
theorem writtenValueReadsBack : Obligations.WrittenValueReadsBack := by
  unfold Obligations.WrittenValueReadsBack
  intro s r v herr hw hr hv
  obtain ⟨s', hs'⟩ := State.exists_regWrite hw hr hv
  have hread : ({ s' with reply := .completed } : State).regRead r = some v := by
    rw [← State.regRead_of_regWrite hs' hv]
    cases r <;> rfl
  exact ⟨_, exec_wr_of_regWrite herr hs', exec_rd_of_regRead hread⟩

end Sys2Proof.Machine
end

section
/-! PROOF. One step from the host's pending bits (30_encoding.md R71, R72, R78): what the bits decode to decides it, and
it takes exactly the bits of the transaction. -/

namespace Sys2Proof.Machine

/-! ### The step by what is pending -/

/-- Before a reset event no bit is pending. -/
theorem decode_of_reset (aw : Nat) {es rest : List HostEvent} (h : es = .reset :: rest) :
    decode aw (leadingBits es) = .incomplete := by
  subst h
  rfl

/-- Settles O15: of what the pending events can ask for, only the decoded instruction fits. -/
theorem stepRunsTheDecodedTransaction : Obligations.StepRunsTheDecodedTransaction := by
  unfold Obligations.StepRunsTheDecodedTransaction
  intro s i h
  rcases fetch_cases s with ⟨_, hd, _⟩ | ⟨rest, he, _⟩ | ⟨j, hd, hf⟩ | ⟨w, hd, _⟩ | ⟨_, hd, _⟩
  · cases h.symm.trans hd
  · cases h.symm.trans (decode_of_reset _ he)
  · cases h.symm.trans hd
    rw [step, hf]
  · cases h.symm.trans hd
  · cases h.symm.trans hd

/-- A malformed header is answered on its eight bits alone (R72, R78). -/
theorem step_of_malformed {s : State} {w : Bool} (h : decode s.par.aw (leadingBits s.events) = .malformed w) :
    step s = .next (State.malformedHeader { s with events := s.events.drop 8 } w) := by
  rcases fetch_cases s with ⟨_, hd, _⟩ | ⟨rest, he, _⟩ | ⟨j, hd, _⟩ | ⟨v, hd, hf⟩ | ⟨_, hd, _⟩
  · cases h.symm.trans hd
  · cases h.symm.trans (decode_of_reset _ he)
  · cases h.symm.trans hd
  · cases h.symm.trans hd
    rw [step, hf]
  · cases h.symm.trans hd

theorem fetch_of_incomplete {s : State} (h : decode s.par.aw (leadingBits s.events) = .incomplete)
    (hreset : ∀ rest, s.events ≠ .reset :: rest) :
    fetch s = if resetPending s.events = true then .brokenOff else .waiting := by
  unfold fetch
  split
  · next hnil => rw [hnil]; rfl
  · next rest hr => exact absurd hr (hreset rest)
  · rw [h]

/-- Settles O19: with no whole transaction pending the step waits, unless reset breaks in. -/
theorem stepWaitsForAWholeTransaction : Obligations.StepWaitsForAWholeTransaction := by
  unfold Obligations.StepWaitsForAWholeTransaction
  intro s h hreset
  rw [step, fetch_of_incomplete h hreset]
  cases resetPending s.events <;> rfl

/-! ### The step by the bits the host has sent -/

/-- The events that follow a transaction's bits are left for later steps. -/
theorem drop_map_bit_append {bs : List Bool} {n : Nat} (hlen : bs.length = n) (rest : List HostEvent) :
    (bs.map HostEvent.bit ++ rest).drop n = rest :=
  List.drop_left' (by rw [List.length_map, hlen])

/-- A step runs the instruction that the bits stand for, whatever comes after them. -/
theorem step_of_bits {s : State} {bs : List Bool} {i : Instr} {rest : List HostEvent}
    (hes : s.events = bs.map .bit ++ rest) (hd : ∀ more, decode s.par.aw (bs ++ more) = .instr i)
    (hlen : bs.length = i.bitLength s.par.aw) : step s = exec i { s with events := rest } := by
  have h := stepRunsTheDecodedTransaction s i (by rw [hes, leadingBits_append, hd])
  rwa [hes, drop_map_bit_append hlen] at h

/-- Settles O16: the encoding decodes to the instruction and has its length. -/
theorem stepRunsTheEncodedTransaction : Obligations.StepRunsTheEncodedTransaction := by
  unfold Obligations.StepRunsTheEncodedTransaction
  exact fun s i rest hwf hes => step_of_bits hes
    (fun more => decodeOfEncodeIsTheInstruction _ i more hwf) (encode_length _ i)

/-- A write runs as the instruction it is, with the bits of its data field taken. -/
theorem step_of_writeBits {s : State} {r : Reg} {v : Nat} {rest : List HostEvent}
    (hes : s.events = (writeBits s.par.aw r v).map .bit ++ rest) (hv : v < 2 ^ r.dataWidth s.par.aw) :
    step s = exec (writeInstr r v) { s with events := rest } :=
  step_of_bits hes (decode_writeBits hv) (by rw [← encode_writeInstr, encode_length])

/-- Settles O18: such a write has no data field, so its value is that of no bits, and it is illegal. -/
theorem writeToUnwritableRegisterTakesNoData : Obligations.WriteToUnwritableRegisterTakesNoData := by
  unfold Obligations.WriteToUnwritableRegisterTakesNoData
  intro s r rest hw herr hes
  have hwidth : r.dataWidth s.par.aw = 0 := by simp [Reg.dataWidth, hw]
  have hown : ownName r 0 = true := by cases r <;> rfl
  have hbits : writeBits s.par.aw r 0 = headerBits true r := by simp [writeBits, hwidth, bitsOfNat]
  rw [step_of_writeBits (v := 0) (by rw [hbits, hes]) (Nat.two_pow_pos _), writeInstr_of_ownName hown]
  exact exec_wr_of_illegalWrite herr (illegalWrite_of_unwritable_or_wide (.inl hw))

theorem decodeHeader_of_malformed {h : Byte} (hbits : h.extractLsb 6 4 ≠ 0) :
    decodeHeader h = .malformed (h.getLsbD 7) := if_pos hbits

/-- What a malformed header leaves, in and outside the error state (R72, R76). -/
theorem malformedHeader_eq (s : State) (w : Bool) :
    s.malformedHeader w =
      if w = true ∧ s.err = true then { s with reply := .refused }
      else { s with status := (s.status ||| 0x2002) &&& 0xFFFE, reply := .failed } := by
  rw [State.malformedHeader, s.refuse_eq, s.fail_eq, Status.raise_illegal]
  simp only [Bool.and_eq_true]

/-- Settles O17: the header alone is malformed, whatever follows it. -/
theorem malformedHeaderFailsOrIsRefused : Obligations.MalformedHeaderFailsOrIsRefused := by
  unfold Obligations.MalformedHeaderFailsOrIsRefused
  intro s h rest hbits hes
  have hheader : decodeHeader (BitVec.ofNat 8 (natOfBits (bitsOfNat 8 h.toNat))) = .malformed (h.getLsbD 7) := by
    rw [ofNat_natOfBits_bitsOfNat, BitVec.ofNat_toNat, BitVec.setWidth_eq, decodeHeader_of_malformed hbits]
  have hd : decode s.par.aw (leadingBits s.events) = .malformed (h.getLsbD 7) := by
    rw [hes, leadingBits_append, decode_append_of_malformed _ (bitsOfNat_length 8 _) _ hheader]
  rw [step_of_malformed hd, hes, drop_map_bit_append (bitsOfNat_length 8 _), malformedHeader_eq]
  rfl

/-! ### The words of the opcode table (R75) -/

/-- The bits `bs aw` decode to `i` at every address width, whatever follows them, and are its whole length. -/
def SpellsInstr (bs : Nat → List Bool) (i : Instr) : Prop :=
  ∀ aw, (∀ more, decode aw (bs aw ++ more) = .instr i) ∧ (bs aw).length = i.bitLength aw

theorem spellsInstr_writeInstr {bs : Nat → List Bool} {r : Reg} {v : Nat} (hbs : ∀ aw, bs aw = writeBits aw r v)
    (hv : ∀ aw, v < 2 ^ r.dataWidth aw) : SpellsInstr bs (writeInstr r v) := by
  intro aw
  rw [hbs]
  exact ⟨decode_writeBits (hv aw), by rw [← encode_writeInstr, encode_length]⟩

/-- An 8-bit row is a header: a malformed one, a read, or a write of the value 0. -/
theorem tableBits_header_cases {nbits : Nat} (hn : nbits ≤ 8) (w : Nat) :
    (∃ b, ∀ aw, decode aw (tableBits aw nbits w) = .malformed b) ∨
    ∃ i, SpellsInstr (fun aw => tableBits aw nbits w) i := by
  have hheader : decodeHeader (BitVec.ofNat 8 (natOfBits (bitsOfNat 8 w))) = decodeHeader (BitVec.ofNat 8 w) := by
    rw [ofNat_natOfBits_bitsOfNat]
  cases hw : decodeHeader (BitVec.ofNat 8 w) with
  | malformed b =>
    have htable : ∀ aw, tableBits aw nbits w = bitsOfNat 8 w ++ [] := by simp [tableBits, hn, hw]
    exact .inl ⟨b, fun aw => by
      rw [htable, decode_append_of_malformed aw (bitsOfNat_length 8 w) [] (hheader.trans hw)]⟩
  | rd r =>
    have htable : ∀ aw, tableBits aw nbits w = bitsOfNat 8 w := by simp [tableBits, hn, hw]
    refine .inr ⟨.rd r, fun aw => ?_⟩
    simp only [htable]
    exact ⟨fun more => decode_append_of_rd aw (bitsOfNat_length 8 w) more (hheader.trans hw), bitsOfNat_length 8 w⟩
  | wr r =>
    have htable : ∀ aw, tableBits aw nbits w = writeBits aw r 0 := by
      intro aw
      have hbits := eq_headerBits_of_decodeHeader (bitsOfNat_length 8 w) (w := true) (hheader.trans hw)
      have hzeros := bitsOfNat_natOfBits (List.replicate (r.dataWidth aw) false)
      rw [natOfBits_replicate_false, List.length_replicate] at hzeros
      simp [tableBits, hn, hw, writeBits, hbits, hzeros]
    exact .inr ⟨_, spellsInstr_writeInstr htable fun aw => Nat.two_pow_pos _⟩

/-- The bits placed for a table word spell its instruction (R75). -/
theorem spellsInstr_tableBits {nbits w : Nat} {i : Instr} (h : decodeTableWord nbits w = some i) :
    SpellsInstr (fun aw => tableBits aw nbits w) i := by
  unfold decodeTableWord at h
  split at h
  · next hn =>
    rcases tableBits_header_cases hn w with ⟨b, hb⟩ | ⟨j, hj⟩
    · rw [hb] at h
      cases h
    · have hd := (hj Config.defaultAW).1 []
      rw [List.append_nil] at hd
      rw [hd] at h
      cases h
      exact hj
  · next hn =>
    obtain ⟨k, hk, rfl⟩ := Option.map_eq_some_iff.mp h
    have htable : ∀ aw, tableBits aw nbits w = writeBits aw .cmd (BitVec.ofNat 16 w).toNat := by
      intro aw
      rw [tableBits, if_neg hn, ← bitsOfNat_mod 16 w]
      rfl
    rw [← writeInstr_of_commandOf ((commandOf_toNat _).trans hk)]
    exact spellsInstr_writeInstr htable fun aw => (BitVec.ofNat 16 w).isLt

/-- Settles O20: the bits placed in front of the host's own decode to the instruction of the word. -/
theorem placedTableWordRunsNext : Obligations.PlacedTableWordRunsNext := by
  unfold Obligations.PlacedTableWordRunsNext
  intro s nbits w i h
  obtain ⟨hd, hlen⟩ := spellsInstr_tableBits h s.par.aw
  exact step_of_bits (s := s.withFetchWord nbits w) rfl hd hlen

end Sys2Proof.Machine
end

section
/-! PROOF. What an instruction writes: `STATUS` by its outcome (10_state.md R23), and of the other fields its own alone
(20_memory.md R56; 10_state.md R21 to R27). -/

namespace Sys2Proof.Machine

/-! ### What a completed command and a stored write leave -/

namespace State

variable (s : State)

theorem commandEffect_status (k : Command) : (s.commandEffect k).status = s.status ||| 0x0001 := by
  cases k with
  | extract => exact congrArg (· ||| 0x0001) (s.extracted_status _)
  | run => exact congrArg (· ||| 0x0001) (s.extracted_status _)
  | _ => rfl

/-- An extraction writes `FILL` alone (41_reorder.md R106). -/
theorem extracted_frame (n : Nat) : s.extracted n = { s with fill := (s.extracted n).fill } := by
  unfold extracted
  split <;> rfl

/-- A command writes the image, `FILL`, `BUF`, `CRC` and `STATUS`, and no other register. -/
theorem commandEffect_frame (k : Command) :
    s.commandEffect k =
      { s with mem := (s.commandEffect k).mem, fill := (s.commandEffect k).fill, buf := (s.commandEffect k).buf,
               crc := (s.commandEffect k).crc, status := (s.commandEffect k).status, reply := .completed } := by
  cases k with
  | extract => simp only [commandEffect]; rw [extracted_frame]; rfl
  | run => simp only [commandEffect]; rw [extracted_frame]; rfl
  | _ => rfl

@[simp] theorem commandEffect_start (k : Command) : (s.commandEffect k).start = s.start := by
  rw [commandEffect_frame]

@[simp] theorem commandEffect_length (k : Command) : (s.commandEffect k).length = s.length := by
  rw [commandEffect_frame]

@[simp] theorem commandEffect_crcAddr (k : Command) : (s.commandEffect k).crcAddr = s.crcAddr := by
  rw [commandEffect_frame]

@[simp] theorem commandEffect_maxAddress (k : Command) : (s.commandEffect k).maxAddress = s.maxAddress := by
  rw [commandEffect_frame]

/-- A write that is stored leaves `STATUS` alone, and goes to another register than `CMD` (R90). -/
theorem status_of_regWrite {r : Reg} {v : Nat} {s' : State} (h : s.regWrite r v = some s') :
    r ≠ .cmd ∧ s'.status = s.status := by
  rcases regWrite_cases h with ⟨rfl, rfl⟩ | ⟨rfl, rfl⟩ | ⟨rfl, rfl⟩ | ⟨rfl, rfl⟩ | ⟨rfl, rfl⟩ <;> simp

end State

/-- What an instruction writes: `STATUS` and the reply alone, a register of the host's, or what its command does. -/
theorem exec_write_cases {i : Instr} {s t : State} (h : exec i s = .next t) :
    t = { s with status := t.status, reply := t.reply } ∨
    (∃ r v s', i = .wr r v ∧ s.regWrite r v = some s' ∧ t = s'.complete) ∨
    ∃ k, issues i k ∧ t = s.commandEffect k := by
  rcases exec_cases i s t h with ⟨_, _, rfl⟩ | ⟨V, _, rfl, _⟩ | ⟨_, v, _, _, rfl⟩ |
    ⟨_, r, v, s', hi, hs', rfl⟩ | ⟨_, k, hi, _, _, rfl⟩
  · exact .inl rfl
  · exact .inl rfl
  · exact .inl rfl
  · exact .inr (.inl ⟨r, v, s', hi, hs', rfl⟩)
  · exact .inr (.inr ⟨k, hi, rfl⟩)

/-! ### `STATUS` -/

/-- `STATUS` stays, takes `DONE`, or takes the causes that R174 gives the instruction. -/
theorem exec_status_cases {i : Instr} {s t : State} (h : exec i s = .next t) :
    t.status = s.status ∨ t.status = s.status ||| 0x0001 ∨
    ∃ V, V ⊆ mayRaise s.par.aw i ∧ t.status = Status.raise V s.status := by
  rcases exec_cases i s t h with ⟨_, _, rfl⟩ | ⟨V, _, rfl, _⟩ | ⟨_, v, _, _, rfl⟩ |
    ⟨_, r, v, s', _, hs', rfl⟩ | ⟨_, k, _, _, _, rfl⟩
  · exact .inl rfl
  · obtain ⟨V', _, hmay, heq⟩ := eq_fail_of_failed h rfl
    exact .inr (.inr ⟨V', hmay, congrArg State.status heq⟩)
  · exact .inl rfl
  · exact .inl (s.status_of_regWrite hs').2
  · exact .inr (.inl (s.commandEffect_status k))

/-- `DONE` is the only bit that a failure clears (R166). -/
theorem Status.raise_bit_of_bit (V : List Cause) {w : Word} {b : Nat} (hb : b ≠ 0) (h : w.getLsbD b = true) :
    (raise V w).getLsbD b = true := by
  rw [raise_bit, if_neg hb, h]
  simp

theorem exec_status_bit_of_bit {i : Instr} {s t : State} (h : exec i s = .next t) {b : Nat} (hb : b ≠ 0)
    (hbit : s.status.getLsbD b = true) : t.status.getLsbD b = true := by
  rcases exec_status_cases h with heq | heq | ⟨V, _, heq⟩
  · rwa [heq]
  · rw [heq, Status.setDone_bit, hbit, Bool.or_true]
  · rw [heq, Status.raise_bit_of_bit V hb hbit]

theorem bit_eq_twelve (e : Cause) : e.bit = 12 ↔ e = .resultRange := by cases e <;> decide

/-- Settles O48: `CRC` has 16 bits, and no row of R174 has the guard's cause. -/
theorem resultGuardNeverFails : Obligations.ResultGuardNeverFails := by
  unfold Obligations.ResultGuardNeverFails
  refine ⟨fun s => ⟨s.patchValue_eq, s.patchValue_lt, checkResult_of_lt _ s.patchValue_lt⟩, fun i s t h => ?_⟩
  rcases exec_status_cases h with heq | heq | ⟨V, hmay, heq⟩
  · rw [heq]
  · rw [heq, Status.setDone_bit]
    simp
  · have hany : V.any (fun e => e.bit == 12) = false := by
      rw [List.any_eq_false]
      intro e he hbit
      obtain rfl := (bit_eq_twelve e).mp (by simpa using hbit)
      exact resultRange_notMem_mayRaise _ i (hmay he)
    rw [heq, Status.raise_bit, hany, if_neg (by decide), if_neg (by decide), Bool.or_false]

/-- Settles O10: the reply names the outcome, and each outcome has one way with `STATUS`. -/
theorem outcomeDeterminesStatus : Obligations.OutcomeDeterminesStatus := by
  unfold Obligations.OutcomeDeterminesStatus
  intro i s t h
  rcases exec_cases i s t h with ⟨_, _, rfl⟩ | ⟨V, _, rfl, _⟩ | ⟨r, v, rfl, _, rfl⟩ |
    ⟨_, r, v, s', rfl, hs', rfl⟩ | ⟨_, k, hi, _, _, rfl⟩
  · exact ⟨fun _ => rfl, fun _ => rfl, fun h => nomatch h⟩
  · exact ⟨fun ⟨_, h⟩ => (nomatch h), fun h => (nomatch h), fun h => (nomatch h)⟩
  · exact ⟨fun _ => rfl, fun _ => rfl, fun _ => rfl⟩
  · obtain ⟨hcmd, hstatus⟩ := s.status_of_regWrite hs'
    refine ⟨fun _ => hstatus, fun _ => hstatus, fun _ => ?_⟩
    cases r with
    | cmd => exact absurd rfl hcmd
    | _ => exact hstatus
  · have hreply := s.commandEffect_reply k
    refine ⟨fun ⟨v, h⟩ => ?_, fun h => ?_, fun _ => ?_⟩
    · cases hreply.symm.trans h
    · cases hreply.symm.trans h
    · obtain rfl | ⟨v, rfl, _⟩ := hi
      · rw [s.commandEffect_status k]
        cases k <;> rfl
      · exact s.commandEffect_status k

/-! ### The other fields -/

/-- Settles O26: only a stored write reaches these registers, and it reaches the one it names. -/
theorem registersChangeOnlyByTheirOwnWrite : Obligations.RegistersChangeOnlyByTheirOwnWrite := by
  unfold Obligations.RegistersChangeOnlyByTheirOwnWrite
  intro i s t h
  rcases exec_write_cases h with heq | ⟨r, v, s', rfl, hs', rfl⟩ | ⟨k, _, rfl⟩
  · rw [heq]
    simp
  · rcases State.regWrite_cases hs' with ⟨rfl, rfl⟩ | ⟨rfl, rfl⟩ | ⟨rfl, rfl⟩ | ⟨rfl, rfl⟩ | ⟨rfl, rfl⟩
    all_goals simp [State.complete]
  · rw [s.commandEffect_frame k]
    simp

/-- The instructions that issue a command: its own, and its word written to `CMD`. -/
theorem eq_of_issues {i : Instr} {k : Command} (h : issues i k) : i = k.toInstr ∨ i = .wr .cmd k.word.toNat := by
  obtain rfl | ⟨v, rfl, hv⟩ := h
  · exact .inl rfl
  · exact .inr (by rw [(commandOf_eq_some_iff v k).mp hv])

/-- A command counts as a writer of a field under its own name and as a word written to `CMD` alike. -/
theorem writes_wr_cmd_word (k : Command) :
    writesImage (.wr .cmd k.word.toNat) = writesImage k.toInstr ∧
    writesBuf (.wr .cmd k.word.toNat) = writesBuf k.toInstr ∧
    writesCrc (.wr .cmd k.word.toNat) = writesCrc k.toInstr ∧
    writesFill (.wr .cmd k.word.toNat) = writesFill k.toInstr := by
  cases k with
  | crcByte b =>
    have hb := b.isLt
    rw [toNat_word_crcByte]
    simp [writesImage, writesBuf, writesCrc, writesFill, Command.toInstr]
    omega
  | _ => decide

/-- What an instruction leaves alone: the fields that are not its own, and every slot but the two at `CRCADDR`. -/
def WritesOnlyItsOwn (i : Instr) (s t : State) : Prop :=
  (writesImage i = false → t.mem = s.mem) ∧
  (∀ a, a ≠ s.crcAddr → a ≠ s.crcAddr + 1 → Memory.lookup t.mem a = Memory.lookup s.mem a) ∧
  (writesBuf i = false → t.buf = s.buf) ∧ (writesCrc i = false → t.crc = s.crc) ∧
  (writesFill i = false → t.fill = s.fill)

theorem writesOnlyItsOwn_toInstr (k : Command) (s : State) : WritesOnlyItsOwn k.toInstr s (s.commandEffect k) := by
  cases k with
  | extract =>
    have hmem : (s.commandEffect .extract).mem = s.mem := s.extracted_mem _
    have hcrc : (s.extracted s.length).crc = s.crc := by rw [s.extracted_frame s.length]
    exact ⟨fun _ => hmem, fun _ _ _ => by rw [hmem], fun h => (nomatch h), fun _ => hcrc, fun h => (nomatch h)⟩
  | checksum => exact ⟨fun _ => rfl, fun _ _ _ => rfl, fun _ => rfl, fun h => (nomatch h), fun _ => rfl⟩
  | patch =>
    exact ⟨fun h => (nomatch h), fun _ => s.patch_lookup_of_ne _ _, fun _ => rfl, fun _ => rfl, fun _ => rfl⟩
  | run =>
    refine ⟨fun h => (nomatch h), fun a hfirst hsecond => ?_, fun h => (nomatch h), fun h => (nomatch h),
      fun h => (nomatch h)⟩
    refine (State.patch_lookup_of_ne _ _ _ ?_ ?_).trans ?_
    · simpa using hfirst
    · simpa using hsecond
    · simp
  | crcInit => exact ⟨fun _ => rfl, fun _ _ _ => rfl, fun _ => rfl, fun h => (nomatch h), fun _ => rfl⟩
  | crcByte b => exact ⟨fun _ => rfl, fun _ _ _ => rfl, fun _ => rfl, fun h => (nomatch h), fun _ => rfl⟩

theorem writesOnlyItsOwn_of_issues {i : Instr} {k : Command} (hi : issues i k) (s : State) :
    WritesOnlyItsOwn i s (s.commandEffect k) := by
  obtain rfl | rfl := eq_of_issues hi
  · exact writesOnlyItsOwn_toInstr k s
  · obtain ⟨himage, hbuf, hcrc, hfill⟩ := writes_wr_cmd_word k
    rw [WritesOnlyItsOwn, himage, hbuf, hcrc, hfill]
    exact writesOnlyItsOwn_toInstr k s

/-- Settles O27: a command writes its own fields, a stored write `FILL` at the most, and the rest `STATUS` alone. -/
theorem instructionsWriteOnlyTheirOwnState : Obligations.InstructionsWriteOnlyTheirOwnState := by
  unfold Obligations.InstructionsWriteOnlyTheirOwnState
  intro i s t h
  rcases exec_write_cases h with heq | ⟨r, v, s', rfl, hs', rfl⟩ | ⟨k, hi, rfl⟩
  · rw [heq]
    simp
  · rcases State.regWrite_cases hs' with ⟨rfl, rfl⟩ | ⟨rfl, rfl⟩ | ⟨rfl, rfl⟩ | ⟨rfl, rfl⟩ | ⟨rfl, rfl⟩
    all_goals simp [State.complete, writesFill]
  · exact writesOnlyItsOwn_of_issues hi s

end Sys2Proof.Machine
end

section
/-! PROOF. Reset, the outcomes of a transaction and the error state (10_state.md R23, R33; 00_scope.md R9;
60_exceptions.md R168, R169; 70_reset_and_hazards.md R180). -/

namespace Sys2Proof.Machine

/-! ### Reset -/

/-- Settles O2: `State.reset` is the table. -/
theorem resetStateHasTheStatedValues : Obligations.ResetStateHasTheStatedValues := by
  unfold Obligations.ResetStateHasTheStatedValues
  exact ⟨rfl, rfl, rfl, rfl, rfl, rfl, rfl, rfl, rfl, rfl, rfl, rfl, rfl⟩

/-- Settles O3: an empty image, registers at 0, an empty `BUF` and a `STATUS` of 0. -/
theorem resetStateMeetsInvariant : Obligations.ResetStateMeetsInvariant where
  two_le_aw := by decide
  image_wf := State.reset_mem_wf _
  maxAddress_lt := Nat.two_pow_pos _
  start_lt := Nat.two_pow_pos _
  length_lt := Nat.two_pow_pos _
  crcAddr_lt := Nat.two_pow_pos _
  bufPtr_lt := Nat.two_pow_pos _
  buf_groups := rfl
  buf_le := Nat.zero_le _
  status_reserved := BitVec.zero_and
  not_done_and_err := by simp [State.reset, Status.done]
  err_iff_cause := by simp [State.reset, Status.err, Status.cause]

theorem step_of_reset {s : State} {rest : List HostEvent} (h : s.events = .reset :: rest) :
    step s = .next (State.applyReset { s with events := rest }) := by
  rcases fetch_cases s with ⟨_, _, hno⟩ | ⟨rest', he, hf⟩ | ⟨i, hd, _⟩ | ⟨w, hd, _⟩ | ⟨hf, _⟩
  · exact absurd h (hno rest)
  · cases h.symm.trans he
    rw [step, hf]
  · cases hd.symm.trans (decode_of_reset _ h)
  · cases hd.symm.trans (decode_of_reset _ h)
  · simp [fetch, h] at hf

/-- `DONE` is the only bit of `STATUS` that a malformed header clears. -/
theorem malformedHeader_status_bit_of_bit (s : State) (w : Bool) {b : Nat} (hb : b ≠ 0)
    (hbit : s.status.getLsbD b = true) : (s.malformedHeader w).status.getLsbD b = true := by
  unfold State.malformedHeader
  split
  · exact hbit
  · exact Status.raise_bit_of_bit _ hb hbit

/-- Outside reset no step clears a bit of `STATUS` but `DONE` (R169). -/
theorem step_status_bit_of_bit {s t : State} (h : step s = .next t) (hreset : ∀ rest, s.events ≠ .reset :: rest)
    {b : Nat} (hb : b ≠ 0) (hbit : s.status.getLsbD b = true) : t.status.getLsbD b = true := by
  rcases step_cases s t h with ⟨rfl, _, _⟩ | ⟨rest, he, _⟩ | ⟨i, _, hexec⟩ | ⟨w, _, rfl⟩
  · exact hbit
  · exact absurd he (hreset rest)
  · exact exec_status_bit_of_bit hexec hb hbit
  · exact malformedHeader_status_bit_of_bit _ w hb hbit

/-- Settles O1: a reset event is `applyReset`; every other step keeps all of `STATUS` but `DONE`. -/
theorem resetEventRestoresBlockAndAloneClearsError : Obligations.ResetEventRestoresBlockAndAloneClearsError := by
  unfold Obligations.ResetEventRestoresBlockAndAloneClearsError
  refine ⟨fun s rest hes => ⟨_, step_of_reset hes, ?_⟩, fun s t h hreset => ⟨?_, fun i hi => ?_⟩⟩
  · exact ⟨rfl, rfl, rfl, rfl, rfl, rfl, rfl, rfl, rfl, rfl, rfl, rfl, rfl, rfl⟩
  · exact step_status_bit_of_bit h hreset one_ne_zero
  · exact step_status_bit_of_bit h hreset (by omega)

/-! ### The outcomes of a transaction in a legal state (R9, R62) -/

/-- In a legal state a command that passes its checks reaches existing slots only (R62). -/
theorem State.Inv.commandInSpace {s : State} (hs : s.Inv) {k : Command} (hV : s.commandChecks k = []) :
    s.commandInSpace k := by
  cases k with
  | extract => exact hs.window_in_space hV
  | patch =>
    rw [State.commandChecks_patch, checkCrcAddr_eq_nil] at hV
    exact hs.patch_in_space hV
  | run => exact hs.run_in_space hV
  | _ => trivial

theorem State.Inv.execCommand_goes_on {s : State} (hs : s.Inv) (k : Command) : ∃ t, execCommand k s = .next t := by
  cases herr : s.err with
  | true => exact ⟨_, execCommand_of_err k s herr⟩
  | false =>
    by_cases hV : s.commandChecks k = []
    · exact ⟨_, execCommand_of_ok k s herr hV (hs.commandInSpace hV)⟩
    · exact ⟨_, execCommand_of_checks k s herr hV⟩

theorem State.Inv.exec_wr_goes_on {s : State} (hs : s.Inv) (r : Reg) (v : Nat) :
    ∃ t, Machine.exec (.wr r v) s = .next t := by
  cases herr : s.err with
  | true => exact ⟨_, exec_wr_of_err r v herr⟩
  | false =>
    by_cases hillegal : illegalWrite s r v
    · exact ⟨_, exec_wr_of_illegalWrite herr hillegal⟩
    · by_cases hr : r = .cmd
      · subst hr
        obtain ⟨k, hk⟩ := Option.ne_none_iff_exists'.mp hillegal
        obtain ⟨t, ht⟩ := hs.execCommand_goes_on k
        exact ⟨t, by rw [exec_wr_cmd_of_commandOf hk, exec_toInstr, ht]⟩
      · rw [illegalWrite, if_neg hr] at hillegal
        obtain ⟨s', hs'⟩ := Option.ne_none_iff_exists'.mp hillegal
        exact ⟨_, exec_wr_of_regWrite herr hs'⟩

/-- In a legal state no instruction stops the machine. -/
theorem State.Inv.exec_goes_on {s : State} (hs : s.Inv) (i : Instr) : ∃ t, Machine.exec i s = .next t := by
  cases i with
  | rd r =>
    cases hr : s.regRead r with
    | some v => exact ⟨_, exec_rd_of_regRead hr⟩
    | none => exact ⟨_, exec_rd_of_unreadable s ((s.regRead_eq_none r).mp hr)⟩
  | wr r v => exact hs.exec_wr_goes_on r v
  | extract => exact hs.execCommand_goes_on .extract
  | checksum => exact hs.execCommand_goes_on .checksum
  | patch => exact hs.execCommand_goes_on .patch
  | run => exact hs.execCommand_goes_on .run
  | crcInit => exact hs.execCommand_goes_on .crcInit
  | crcByte b => exact hs.execCommand_goes_on (.crcByte b)

/-- Settles O6: no instruction stops, and each way it goes on has its reply. -/
theorem everyTransactionHasOneOfTheThreeOutcomes : Obligations.EveryTransactionHasOneOfTheThreeOutcomes := by
  unfold Obligations.EveryTransactionHasOneOfTheThreeOutcomes
  intro s i hs
  obtain ⟨t, ht⟩ := hs.exec_goes_on i
  refine ⟨t, ht, ?_⟩
  rcases exec_cases i s t ht with ⟨herr, _, rfl⟩ | ⟨V, _, rfl, _⟩ | ⟨_, v, _, _, rfl⟩ |
    ⟨_, _, _, s', _, _, rfl⟩ | ⟨_, k, _, _, _, rfl⟩
  · exact .inr (.inr (.inr ⟨rfl, herr⟩))
  · exact .inr (.inr (.inl rfl))
  · exact .inr (.inl ⟨v, rfl⟩)
  · exact .inl rfl
  · exact .inl (s.commandEffect_reply k)

/-- Settles O5: of what can be pending, only reset inside a transaction has no next state. -/
theorem stepStopsOnlyForResetInsideTransaction : Obligations.StepStopsOnlyForResetInsideTransaction := by
  unfold Obligations.StepStopsOnlyForResetInsideTransaction
  intro s hs
  rcases fetch_cases s with ⟨hf, _⟩ | ⟨rest, _, hf⟩ | ⟨i, _, hf⟩ | ⟨w, _, hf⟩ | ⟨hf, hd, hpending⟩
  case inr.inr.inr.inr => exact .inr ⟨by rw [step, hf], hpending, hd⟩
  all_goals rw [step, hf]
  · exact .inl ⟨_, rfl⟩
  · exact .inl ⟨_, rfl⟩
  · exact .inl ((hs.withEvents _).exec_goes_on i)
  · exact .inl ⟨_, rfl⟩

/-! ### The error state (R23, R168) -/

/-- In the error state `DONE` is 0 already and `ERR` 1, so an illegal read adds the one cause (C5). -/
theorem Status.raise_illegal_of_err {w : Word} (hw : Lawful w) (herr : err w = true) :
    raise [.illegal] w = w ||| 0x2000 := by
  have hdone : w.getLsbD 0 = false := Bool.eq_false_of_not_eq_true fun h => hw.not_done_and_err ⟨h, herr⟩
  have hmask : (0x2000 : Word) = Cause.illegal.mask := rfl
  apply BitVec.eq_of_getLsbD_eq
  intro b _
  rw [hmask, raise_bit, BitVec.getLsbD_or, mask_bit]
  by_cases h0 : b = 0
  · rw [if_pos h0, h0, hdone]
    rfl
  · by_cases h1 : b = 1
    · rw [if_neg h0, if_pos h1, h1, show w.getLsbD 1 = true from herr]
      rfl
    · simp [h0, h1]

theorem exec_of_err {i : Instr} {s : State} (herr : s.err = true) (hi : ∀ r, i ≠ .rd r) :
    exec i s = .next { s with reply := .refused } := by
  cases i with
  | rd r => exact absurd rfl (hi r)
  | wr r v => exact exec_wr_of_err r v herr
  | extract => exact exec_toInstr_of_err .extract herr
  | checksum => exact exec_toInstr_of_err .checksum herr
  | patch => exact exec_toInstr_of_err .patch herr
  | run => exact exec_toInstr_of_err .run herr
  | crcInit => exact exec_toInstr_of_err .crcInit herr
  | crcByte b => exact exec_toInstr_of_err (.crcByte b) herr

theorem isIllegalRead_of_not_rd {i : Instr} (hi : ∀ r, i ≠ .rd r) : isIllegalRead (.instr i) = false := by
  cases i with
  | rd r => exact absurd rfl (hi r)
  | _ => rfl

/-- What the error state lets a step do: take the host's bits, reply, and add `E_ILLEGAL` where `illegal` says so. -/
def FrozenBut (illegal : Bool) (s t : State) : Prop :=
  t = { s with status := t.status, events := t.events, reply := t.reply } ∧
  t.status = if illegal = true then s.status ||| 0x2000 else s.status

theorem FrozenBut.of_withEvents {illegal : Bool} {s t : State} {es : List HostEvent}
    (h : FrozenBut illegal (s.withEvents es) t) : FrozenBut illegal s t := h

theorem frozenBut_exec {i : Instr} {s t : State} (hs : s.Inv) (herr : s.err = true) (h : exec i s = .next t) :
    FrozenBut (isIllegalRead (.instr i)) s t := by
  by_cases hi : ∃ r, i = .rd r
  · obtain ⟨r, rfl⟩ := hi
    cases hr : s.regRead r with
    | some v =>
      have hread : r.readable = true := by rw [← s.regRead_isSome, hr, Option.isSome_some]
      cases (exec_rd_of_regRead hr).symm.trans h
      exact ⟨rfl, by simp [isIllegalRead, hread]⟩
    | none =>
      have hread := (s.regRead_eq_none r).mp hr
      cases (exec_rd_of_unreadable s hread).symm.trans h
      refine ⟨rfl, ?_⟩
      rw [← Status.raise_illegal, Status.raise_illegal_of_err hs.lawful herr]
      simp [isIllegalRead, hread]
  · have hi' : ∀ r, i ≠ .rd r := fun r hr => hi ⟨r, hr⟩
    cases (exec_of_err herr hi').symm.trans h
    rw [isIllegalRead_of_not_rd hi']
    exact ⟨rfl, rfl⟩

theorem frozenBut_malformedHeader {s : State} (hs : s.Inv) (herr : s.err = true) (w : Bool) :
    FrozenBut (isIllegalRead (.malformed w)) s (s.malformedHeader w) := by
  rw [State.malformedHeader, herr, Bool.and_true]
  cases w with
  | true => exact ⟨rfl, rfl⟩
  | false => exact ⟨rfl, Status.raise_illegal_of_err hs.lawful herr⟩

/-- Settles O7: in the error state every write is refused, and a failing read adds its cause. -/
theorem errorStateIsFrozenButForIllegalReads : Obligations.ErrorStateIsFrozenButForIllegalReads := by
  unfold Obligations.ErrorStateIsFrozenButForIllegalReads
  intro s t hs herr hreset h
  rcases step_cases s t h with ⟨rfl, hd, _⟩ | ⟨rest, he, _⟩ | ⟨i, hd, hexec⟩ | ⟨w, hd, rfl⟩
  · rw [hd]
    exact ⟨rfl, rfl⟩
  · exact absurd he (hreset rest)
  · rw [hd]
    exact (frozenBut_exec (hs.withEvents (s.events.drop (i.bitLength s.par.aw))) herr hexec).of_withEvents
  · rw [hd]
    exact (frozenBut_malformedHeader (hs.withEvents (s.events.drop 8)) herr w).of_withEvents

end Sys2Proof.Machine
end

section
/-! PROOF. The bytes of an extraction one by one (41_reorder.md R105 to R109), and with them `RUN`: as the three
commands (44_run.md R153), and a second time (70_reset_and_hazards.md R185). -/

namespace Sys2Proof.Machine

namespace State

variable (s : State)

/-! ### The bytes of the window -/

theorem windowByte_upper (base k : Nat) :
    s.windowByte base (3 * k) = (s.readFb (base + 2 * k + 1) 0x00FF).extractLsb 7 0 := by
  rw [windowByte, Nat.mul_mod_right, Nat.mul_div_cancel_left k (by decide)]
  rfl

theorem windowByte_higher (base k : Nat) :
    s.windowByte base (3 * k + 1) = (s.readFb (base + 2 * k) 0xFFFF).extractLsb 15 8 := by
  rw [windowByte, show (3 * k + 1) % 3 = 1 by omega, show (3 * k + 1) / 3 = k by omega]
  rfl

theorem windowByte_lower (base k : Nat) :
    s.windowByte base (3 * k + 2) = (s.readFb (base + 2 * k) 0x00FF).extractLsb 7 0 := by
  rw [windowByte, show (3 * k + 2) % 3 = 2 by omega, show (3 * k + 2) / 3 = k by omega]
  rfl

theorem extract_bytes (base len : Nat) :
    (s.extract base len).2 = (List.range (3 * (len / 2))).map (s.windowByte base) := by
  rw [extract_eq_extracted, pairGroups_eq_map_windowByte]

theorem extract_getElem? (base : Nat) {len j : Nat} (hj : j < 3 * (len / 2)) :
    (s.extract base len).2[j]? = some (s.windowByte base j) := by
  rw [extract_bytes, List.getElem?_map, List.getElem?_range hj, Option.map_some]

/-- A byte of a pair inside the window reads slots inside the window (R107). -/
theorem windowByte_congr {t : State} {base len : Nat}
    (h : ∀ a, base ≤ a → a < base + len → Memory.lookup s.mem a = Memory.lookup t.mem a) {j : Nat}
    (hj : j < 3 * (len / 2)) : s.windowByte base j = t.windowByte base j := by
  have heven := fun f => s.readFb_congr (base + 2 * (j / 3)) f (h _ (by omega) (by omega))
  have hodd := fun f => s.readFb_congr (base + 2 * (j / 3) + 1) f (h _ (by omega) (by omega))
  rw [windowByte, windowByte, heven, heven, hodd]

theorem windowBytes_congr {t : State} {base len : Nat}
    (h : ∀ a, base ≤ a → a < base + len → Memory.lookup s.mem a = Memory.lookup t.mem a) (hlen : len % 2 = 0) :
    s.windowBytes base len = t.windowBytes base len :=
  List.map_congr_left fun j hj => s.windowByte_congr h (by have := List.mem_range.mp hj; omega)

end State

/-- Settles O30: the bytes of the pair `k` are the fields of its two words, or of their fills where they are absent. -/
theorem extractedBytesByPresence : Obligations.ExtractedBytesByPresence := by
  unfold Obligations.ExtractedBytesByPresence
  intro s base len
  have hsize : (s.extract base len).2.length = 3 * (len / 2) := by
    rw [s.extract_bytes, List.length_map, List.length_range]
  refine ⟨hsize, fun heven => by omega, fun k hk => ⟨?_, ?_, ?_⟩⟩
  · rw [s.extract_getElem? base (by omega), s.windowByte_upper, State.readFb]
    cases Memory.lookup s.mem (base + 2 * k + 1) <;> rfl
  · rw [s.extract_getElem? base (by omega), s.windowByte_higher, State.readFb]
    cases Memory.lookup s.mem (base + 2 * k) <;> rfl
  · rw [s.extract_getElem? base (by omega), s.windowByte_lower, State.readFb]
    cases Memory.lookup s.mem (base + 2 * k) <;> rfl

/-- Settles O31: each byte of the stream reads slots of the window, with the fill as an argument. -/
theorem extractionDependsOnlyOnTheWindow : Obligations.ExtractionDependsOnlyOnTheWindow := by
  unfold Obligations.ExtractionDependsOnlyOnTheWindow
  intro s t base len h
  rw [s.extract_bytes, t.extract_bytes]
  exact List.map_congr_left fun j hj => s.windowByte_congr h (List.mem_range.mp hj)

/-! ### Commands in sequence -/

theorem execAll_cons {i : Instr} {s t : State} (h : exec i s = .next t) (is : List Instr) :
    execAll (i :: is) s = execAll is t := by
  simp only [execAll, h]

namespace Status

/-- Completing a command leaves `ERR` alone. -/
theorem err_or_done (w : Word) : err (w ||| 0x0001) = err w := setDone_bit w 1

theorem or_done_or_done (w : Word) : w ||| 0x0001 ||| 0x0001 = w ||| 0x0001 := by
  rw [BitVec.or_assoc, BitVec.or_self]

/-- A failure clears `DONE`, so it is the same whether `DONE` was set or not (R166). -/
theorem raise_or_done (V : List Cause) (w : Word) : raise V (w ||| 0x0001) = raise V w := by
  apply BitVec.eq_of_getLsbD_eq
  intro b _
  rw [raise_bit, raise_bit, setDone_bit]
  by_cases h0 : b = 0 <;> simp [h0]

end Status

/-! ### `RUN` as the three commands (R153) -/

/-- The state between the extraction and the checksum of `RUN` (R150 line 2). -/
def State.filled (s : State) : State :=
  { s with buf := s.windowBytes s.start s.length, fill := s.fillAfter s.length }

theorem State.exec_checksum_filled (s : State) (herr : s.filled.completeCommand.err = false) :
    exec .checksum s.filled.completeCommand = .next s.checksummed.completeCommand := by
  rw [exec_checksum_of_ok herr, completeCommand_eq, completeCommand_eq, Status.or_done_or_done]
  rfl

section
variable {s : State} (hs : s.Inv) (herr : s.err = false) (hstart : s.start % 2 = 0) (hlen : s.length % 2 = 0)
  (hend : s.start + s.length ≤ s.maxAddress)
include hs herr hstart hlen hend

theorem exec_extract_of_valid : exec .extract s = .next s.filled.completeCommand :=
  extractFillsTheBufferFromTheWindow.1 s hs herr hstart hlen hend

/-- `EXTRACT` and `CHECKSUM` leave what `RUN` has before it writes back, with `DONE` set. -/
theorem extract_checksum_of_valid :
    s.checksummed.completeCommand.Inv ∧ s.checksummed.completeCommand.err = false ∧
    ∀ is, execAll (.extract :: .checksum :: is) s = execAll is s.checksummed.completeCommand := by
  have hextract := exec_extract_of_valid hs herr hstart hlen hend
  have herr' : Status.err (s.status ||| 0x0001) = false := (Status.err_or_done _).trans herr
  have hchecksum := s.exec_checksum_filled herr'
  exact ⟨(hs.exec hextract).exec hchecksum, herr',
    fun is => (execAll_cons hextract _).trans (execAll_cons hchecksum is)⟩

theorem exec_run_of_even (heven : s.crcAddr % 2 = 0) : exec .run s = .next (s.commandEffect .run) :=
  exec_run_of_valid hs herr ((s.checkRun_eq_nil _ _ _).mpr ⟨⟨hstart, hlen, hend⟩, heven⟩)

end

/-- Setting `DONE` before the write-back makes no difference to the state after it. -/
theorem patch_completeCommand (s : State) :
    (s.completeCommand.patch s.completeCommand.crcAddr s.completeCommand.patchValue).completeCommand =
      (s.patch s.crcAddr s.patchValue).completeCommand := by
  rw [State.completeCommand_eq, State.completeCommand_eq]
  simp only [State.patch, State.imgWrite, State.withMem, State.completeCommand_eq, Status.or_done_or_done]
  rfl

/-- Settles O50: after `EXTRACT` and `CHECKSUM` it is `PATCH` that is left of `RUN`, or that fails. -/
theorem runEqualsTheThreeCommands : Obligations.RunEqualsTheThreeCommands := by
  unfold Obligations.RunEqualsTheThreeCommands
  intro s hs herr hstart hlen hend
  obtain ⟨hinv, herr', hthen⟩ := extract_checksum_of_valid hs herr hstart hlen hend
  refine ⟨fun heven => ?_, fun hodd => ?_⟩
  · rw [hthen, execAll_cons (exec_patch_of_even hinv herr' heven), patch_completeCommand,
      exec_run_of_even hs herr hstart hlen hend heven, s.commandEffect_run hlen]
    rfl
  · rw [hthen, execAll_cons (exec_patch_of_odd herr' hodd)]
    have hstatus : ((s.status ||| 0x0001) ||| 0x0802) &&& 0xFFFE = (s.status ||| 0x0802) &&& 0xFFFE := by
      rw [← Status.raise_crcAddrOdd, ← Status.raise_crcAddrOdd, Status.raise_or_done]
    rw [← hstatus]
    rfl

/-! ### `RUN` a second time (R185) -/

/-- A canonical image is known by its words (20_memory.md R50). -/
theorem mem_eq_of_lookup_eq {s t : State} (hs : s.Inv) (ht : t.Inv)
    (h : ∀ a, Memory.lookup s.mem a = Memory.lookup t.mem a) : s.mem = t.mem := by
  have hrising : ∀ {u : State}, u.Inv → Memory.risingFrom 0 u.mem = true := fun hu =>
    (Bool.and_eq_true_iff.mp hu.image_wf).1
  exact Memory.eq_of_lookup_eq _ _ 0 (hrising hs) (hrising ht) h

theorem State.fillAfter_of_fill_eq {s t : State} {n : Nat} (h : t.fill = s.fillAfter n) : t.fillAfter n = t.fill := by
  rw [fillAfter, h, fillAfter]
  split <;> rfl

/-- What a second `RUN` needs in order to change nothing: all that it would write is there already. -/
structure RunDone (t : State) : Prop where
  buf : t.buf = t.windowBytes t.start t.length
  crc : t.crc = crc16 (t.windowBytes t.start t.length)
  fill : t.fill = t.fillAfter t.length
  status : t.status ||| 0x0001 = t.status
  reply : t.reply = .completed
  first : Memory.lookup t.mem t.crcAddr = some t.crc
  second : Memory.lookup t.mem (t.crcAddr + 1) = some 0x0000

/-- A `RUN` on valid operands that finds its results in place changes nothing. -/
theorem RunDone.exec_run {t : State} (hdone : RunDone t) (ht : t.Inv) (herr : t.err = false)
    (hV : t.checkRun t.start t.length t.crcAddr = []) : exec .run t = .next t := by
  obtain ⟨⟨-, hlen, -⟩, -⟩ := (t.checkRun_eq_nil _ _ _).mp hV
  have hrun := exec_run_of_valid ht herr hV
  have hmem : (t.commandEffect .run).mem = t.mem := by
    refine mem_eq_of_lookup_eq (ht.exec hrun) ht fun a => ?_
    by_cases hfirst : a = t.crcAddr
    · rw [hfirst, t.commandEffect_run_lookup_first hlen, hdone.first, hdone.crc]
    · by_cases hsecond : a = t.crcAddr + 1
      · rw [hsecond, t.commandEffect_run_lookup_second hlen, hdone.second]
      · exact t.commandEffect_run_lookup_of_ne hlen hfirst hsecond
  rw [hrun, t.commandEffect_run_frame hlen, hmem, ← hdone.crc, ← hdone.buf, ← hdone.fill, hdone.status,
    ← hdone.reply]

/-- With the slots outside the window, the window is after `RUN` what it was before. -/
theorem runDone_commandEffect_run {s : State} (hlen : s.length % 2 = 0)
    (houtside : s.crcAddr + 1 < s.start ∨ s.start + s.length ≤ s.crcAddr) : RunDone (s.commandEffect .run) := by
  have hframe := s.commandEffect_run_frame hlen
  have hcrc := congrArg State.crc hframe
  have hwindow : (s.commandEffect .run).windowBytes s.start s.length = s.windowBytes s.start s.length :=
    State.windowBytes_congr _ (fun a hlo hhi => s.commandEffect_run_lookup_of_ne hlen (by omega) (by omega)) hlen
  constructor
  case buf => rw [s.commandEffect_start, s.commandEffect_length, hwindow, hframe]
  case crc => rw [s.commandEffect_start, s.commandEffect_length, hwindow, hcrc]
  case fill => rw [s.commandEffect_length, State.fillAfter_of_fill_eq (congrArg State.fill hframe)]
  case status => rw [s.commandEffect_status, Status.or_done_or_done]
  case reply => exact s.commandEffect_reply .run
  case first => rw [s.commandEffect_crcAddr, s.commandEffect_run_lookup_first hlen, hcrc]
  case second => rw [s.commandEffect_crcAddr, s.commandEffect_run_lookup_second hlen]

/-- Settles O51: the first `RUN` leaves the window as it was, so the second finds all that it writes in place. -/
theorem runIsIdempotentOutsideTheWindow : Obligations.RunIsIdempotentOutsideTheWindow := by
  unfold Obligations.RunIsIdempotentOutsideTheWindow
  intro s t hs herr hstart hlen hend heven houtside h
  have ht := hs.exec h
  cases h.symm.trans (exec_run_of_even hs herr hstart hlen hend heven)
  refine (runDone_commandEffect_run hlen houtside).exec_run ht ?_ ?_
  · rw [State.err, s.commandEffect_status, Status.err_or_done]
    exact herr
  · simp [State.checkRun_eq_nil, hstart, hlen, hend, heven]

end Sys2Proof.Machine
end

section
/-! PROOF. The CRC: one step in gates (42_crc.md R121), the byte as eight shifts and as a table (R123, R126), linearity
and the residue (R125), and the streamed checksum (R132). -/

namespace Sys2Proof.Machine

/-! ### One step (R121) -/

/-- The generator where the feedback is 1. -/
def feedback (d : Bool) : Word := if d then crcPoly else 0

theorem crcBit_eq (c : Word) (d : Bool) : crcBit c d = (c <<< 1) ^^^ feedback (c.getLsbD 15 ^^ d) := by
  rw [crcBit, feedback]
  split <;> simp

theorem feedback_bit (d : Bool) {i : Nat} (hi : i < 16) :
    (feedback d).getLsbD i = (d && decide (i = 0 ∨ i = 2 ∨ i = 15)) := by
  have hall : ∀ d, ∀ i : Fin 16, (feedback d).getLsbD i = (d && decide (i.val = 0 ∨ i.val = 2 ∨ i.val = 15)) := by
    decide
  exact hall d ⟨i, hi⟩

theorem feedback_xor (d e : Bool) : feedback (d ^^ e) = feedback d ^^^ feedback e := by
  cases d <;> cases e <;> decide

/-- Settles O33: the shift moves every bit up, and the generator has the bits 0, 2 and 15. -/
theorem crcBitInGates : Obligations.CrcBitInGates := by
  unfold Obligations.CrcBitInGates
  intro c d i hi
  rw [crcBit_eq, BitVec.getLsbD_xor, BitVec.getLsbD_shiftLeft, feedback_bit _ hi]
  split_ifs with h0 h2 h15
  · simp [h0]
  · simp [h2]
  · simp [h15]
  · simp [h0, h2, h15, hi]

/-! ### One byte -/

/-- One step is linear (R125). -/
theorem crcBit_xor (c₁ c₂ : Word) (d₁ d₂ : Bool) : crcBit (c₁ ^^^ c₂) (d₁ ^^ d₂) = crcBit c₁ d₁ ^^^ crcBit c₂ d₂ := by
  have hfb : ((c₁ ^^^ c₂).getLsbD 15 ^^ (d₁ ^^ d₂)) = ((c₁.getLsbD 15 ^^ d₁) ^^ (c₂.getLsbD 15 ^^ d₂)) := by
    simp only [BitVec.getLsbD_xor, Bool.xor_assoc, Bool.xor_left_comm]
  rw [crcBit_eq, crcBit_eq, crcBit_eq, hfb, feedback_xor, BitVec.shiftLeft_xor_distrib]
  ac_rfl

/-- Settles O36: each of the eight steps is linear. -/
theorem crcByteIsLinear : Obligations.CrcByteIsLinear := by
  unfold Obligations.CrcByteIsLinear
  intro c₁ c₂ b₁ b₂
  simp only [crcByte, BitVec.getLsbD_xor, crcBit_xor]

/-- One shift of the register with the message already in it (R123). -/
def crcShift (t : Word) : Word := if t.getLsbD 15 = true then (t <<< 1) ^^^ 0x8005#16 else t <<< 1

/-- A message held in line with the register meets it bit by bit as it moves out. -/
theorem crcShift_xor (c m : Word) : crcShift (c ^^^ m) = crcBit c (m.getLsbD 15) ^^^ (m <<< 1) := by
  have hshift : ∀ t, crcShift t = crcBit t false := by simp [crcShift, crcBit, crcPoly]
  have hself : crcBit m (m.getLsbD 15) = m <<< 1 := by simp [crcBit]
  rw [hshift, ← Bool.xor_self (m.getLsbD 15), crcBit_xor, hself]

theorem iterate_crcShift_xor (c m : Word) {n : Nat} (hn : n ≤ 16) :
    crcShift^[n] (c ^^^ m) = (List.range n).foldl (fun c k => crcBit c (m.getLsbD (15 - k))) c ^^^ (m <<< n) := by
  induction n with
  | zero => simp
  | succ n ih =>
    have hbit : (m <<< n).getLsbD 15 = m.getLsbD (15 - n) := by
      rw [BitVec.getLsbD_shiftLeft]
      simp [show ¬15 < n by omega]
    rw [Function.iterate_succ_apply', ih (by omega), crcShift_xor, hbit, List.range_succ, List.foldl_append,
      BitVec.shiftLeft_add]
    rfl

/-- Eight shifts take the high byte of the message in, and move the low byte up. -/
theorem iterate_crcShift_eight (c m : Word) :
    crcShift^[8] (c ^^^ m) = crcByte c (m.extractLsb 15 8) ^^^ (m <<< 8) := by
  rw [iterate_crcShift_xor c m (by decide), crcByte_eq_foldl_crcBit]
  congr 1
  refine List.foldl_ext _ _ _ fun c k hk => ?_
  have hk8 := List.mem_range.mp hk
  rw [BitVec.getLsbD_extractLsb, show 8 + (7 - k) = 15 - k by omega, decide_eq_true (by omega), Bool.true_and]

/-- The byte in line with the high byte of the register (R123). -/
def byteOnTop (b : Byte) : Word := b.setWidth 16 <<< 8

theorem extractLsb_byteOnTop (b : Byte) : (byteOnTop b).extractLsb 15 8 = b := by
  apply BitVec.eq_of_getLsbD_eq
  intro i hi
  have hi8 : i < 8 := hi
  simp [byteOnTop, show 8 + i < 16 by omega, show i ≤ 7 by omega]

theorem shiftLeft_byteOnTop (b : Byte) : byteOnTop b <<< 8 = 0#16 := by
  rw [byteOnTop, ← BitVec.shiftLeft_add, BitVec.shiftLeft_eq_zero (by decide)]

theorem crcByte_eq_iterate_crcShift (c : Word) (b : Byte) : crcByte c b = crcShift^[8] (c ^^^ byteOnTop b) := by
  rw [iterate_crcShift_eight, extractLsb_byteOnTop, shiftLeft_byteOnTop, BitVec.xor_zero]

/-- Settles O34: the message is the byte alone, and nothing of it is left to move up. -/
theorem crcByteIsXorThenEightShifts : Obligations.CrcByteIsXorThenEightShifts := by
  unfold Obligations.CrcByteIsXorThenEightShifts
  exact crcByte_eq_iterate_crcShift

/-- Settles O35: with the register all in the message, its high byte meets `b` and its low byte moves up. -/
theorem crcByteFromTable : Obligations.CrcByteFromTable := by
  unfold Obligations.CrcByteFromTable
  intro c b
  rw [crcByte_eq_iterate_crcShift, ← BitVec.zero_xor (x := c ^^^ byteOnTop b), iterate_crcShift_eight,
    BitVec.extractLsb_xor, extractLsb_byteOnTop, BitVec.shiftLeft_xor_distrib, shiftLeft_byteOnTop,
    BitVec.xor_zero, BitVec.xor_comm]
  rfl

/-! ### Messages -/

theorem crcByte_zero_xor_self (b : Byte) : crcByte 0 (b ^^^ b) = 0#16 := by
  rw [BitVec.xor_self]
  decide

/-- A register that takes in its own two bytes is cleared. -/
theorem crcByte_own_bytes (c : Word) : crcByte (crcByte c (c.extractLsb 15 8)) (c.extractLsb 7 0) = 0 := by
  have hlow : (c <<< 8).extractLsb 15 8 = c.extractLsb 7 0 := by
    ext i hi
    simp
    omega
  have htwice : c <<< 8 <<< 8 = 0#16 := by
    rw [← BitVec.shiftLeft_add, BitVec.shiftLeft_eq_zero (by decide)]
  rw [crcByteFromTable c, crcByte_zero_xor_self, BitVec.xor_zero, crcByteFromTable (c <<< 8), hlow,
    crcByte_zero_xor_self, htwice]
  rfl

/-- Settles O37: the high byte of the checksum clears the high byte, and the low byte the rest. -/
theorem messageWithItsChecksumHasResidueZero : Obligations.MessageWithItsChecksumHasResidueZero := by
  unfold Obligations.MessageWithItsChecksumHasResidueZero
  intro B
  have hfold : ∀ c₁ c₂, crc16 (B ++ [c₁, c₂]) = crcByte (crcByte (crc16 B) c₁) c₂ := by simp [crc16]
  rw [hfold, crcByte_own_bytes]

theorem exec_crcByte_of_completed {s : State} (herr : s.err = false) (c : Word) (b : Byte) :
    exec (.crcByte b) (s.withCrc c).completeCommand = .next (s.withCrc (crcByte c b)).completeCommand := by
  have herr' : (s.withCrc c).completeCommand.err = false := (Status.err_or_done _).trans herr
  rw [exec_crcByte_of_ok b herr', State.completeCommand_eq, State.completeCommand_eq, Status.or_done_or_done]
  rfl

/-- Bytes shifted in one by one are folded into the register (R132). -/
theorem execAll_crcByte {s : State} (herr : s.err = false) (B : List Byte) (c : Word) :
    execAll (B.map .crcByte) (s.withCrc c).completeCommand = .next (s.withCrc (B.foldl crcByte c)).completeCommand := by
  induction B generalizing c with
  | nil => rfl
  | cons b B ih => rw [List.map_cons, execAll_cons (exec_crcByte_of_completed herr c b), ih, List.foldl_cons]

/-- Settles O43: after `CRCINIT`, or after the first byte from `0xFFFF`, the rest of the message is folded in. -/
theorem streamedBytesGiveTheChecksum : Obligations.StreamedBytesGiveTheChecksum := by
  unfold Obligations.StreamedBytesGiveTheChecksum
  intro s B herr
  refine ⟨?_, fun hcrc hne => ?_⟩
  · exact (execAll_cons (exec_crcInit_of_ok herr) _).trans (execAll_crcByte herr B 0xFFFF)
  · obtain ⟨b, B, rfl⟩ := List.exists_cons_of_ne_nil hne
    rw [List.map_cons, execAll_cons (exec_crcByte_of_ok b herr), hcrc]
    exact execAll_crcByte herr B (crcByte 0xFFFF b)

/-- Settles O39: the values are computed. -/
theorem crc16ValuesOfTheSpec : Obligations.Crc16ValuesOfTheSpec := by
  unfold Obligations.Crc16ValuesOfTheSpec
  exact ⟨crc16_nil, by decide +kernel, crc16_exampleBuffer⟩

end Sys2Proof.Machine
end

section
/-! PROOF. `Crc16` as the remainder of a polynomial division over GF(2) (42_crc.md R125): a step of the register is
multiplication by `X` modulo the generator, with the message bit taken in at `X^16`. -/

namespace Sys2Proof.Machine

open Polynomial

/-- A bit as a polynomial over GF(2). -/
noncomputable def bitPoly (d : Bool) : (ZMod 2)[X] := if d = true then 1 else 0

/-- A word as a polynomial: bit `i` is the coefficient of `X^i` (R125). -/
noncomputable def wordPoly (w : Word) : (ZMod 2)[X] := ∑ i ∈ Finset.range 16, bitPoly (w.getLsbD i) * X ^ i

/-- The first `n` bits of a message as a polynomial, the first bit the highest coefficient (R125). -/
noncomputable def messagePoly (m : ℕ → Bool) (n : ℕ) : (ZMod 2)[X] :=
  ∑ j ∈ Finset.range n, bitPoly (m j) * X ^ (n - 1 - j)

/-- The generator with its leading term (R120). -/
noncomputable def generator : (ZMod 2)[X] := X ^ 16 + X ^ 15 + X ^ 2 + 1

/-- The register after the first `n` bits of a message. -/
def crcBits (m : ℕ → Bool) (n : ℕ) (c : Word) : Word := (List.range n).foldl (fun c j => crcBit c (m j)) c

/-- Bit `j` of a byte string, bit 7 of a byte first. -/
def messageBit (B : List Byte) (j : ℕ) : Bool := (B.getD (j / 8) 0).getLsbD (7 - j % 8)

theorem bitPoly_mul (d : Bool) (p : (ZMod 2)[X]) : bitPoly d * p = if d = true then p else 0 := by
  rw [bitPoly, ite_mul, one_mul, zero_mul]

theorem bitPoly_xor (d e : Bool) : bitPoly (d ^^ e) = bitPoly d + bitPoly e := by
  cases d <;> cases e <;> simp [bitPoly, CharTwo.add_self_eq_zero]

theorem wordPoly_xor (v w : Word) : wordPoly (v ^^^ w) = wordPoly v + wordPoly w := by
  simp only [wordPoly, BitVec.getLsbD_xor, bitPoly_xor, add_mul, Finset.sum_add_distrib]

/-- The bit that a shift loses is the coefficient of `X^16`. -/
theorem wordPoly_shiftLeft_one (w : Word) : wordPoly (w <<< 1) = X * wordPoly w + bitPoly (w.getLsbD 15) * X ^ 16 := by
  have hlow : wordPoly (w <<< 1) = ∑ i ∈ Finset.range 15, bitPoly (w.getLsbD i) * X ^ (i + 1) := by
    have hzero : (w <<< 1).getLsbD 0 = false := by simp
    rw [wordPoly, Finset.sum_range_succ', hzero, bitPoly_mul, if_neg Bool.false_ne_true, add_zero]
    refine Finset.sum_congr rfl fun i hi => ?_
    have hi15 := Finset.mem_range.mp hi
    have hsucc : (w <<< 1).getLsbD (i + 1) = w.getLsbD i := by
      rw [BitVec.getLsbD_shiftLeft, decide_eq_true (by omega : i + 1 < 16)]
      simp
    rw [hsucc]
  have hall : X * wordPoly w =
      (∑ i ∈ Finset.range 15, bitPoly (w.getLsbD i) * X ^ (i + 1)) + bitPoly (w.getLsbD 15) * X ^ 16 := by
    have hterm : ∀ i, X * (bitPoly (w.getLsbD i) * X ^ i) = bitPoly (w.getLsbD i) * X ^ (i + 1) := fun i => by ring
    rw [wordPoly, Finset.sum_range_succ, mul_add, Finset.mul_sum, hterm]
    simp only [hterm]
  rw [hall, hlow, add_assoc, CharTwo.add_self_eq_zero, add_zero]

theorem wordPoly_feedback (d : Bool) : wordPoly (feedback d) = bitPoly d * (X ^ 15 + X ^ 2 + 1) := by
  cases d with
  | false => simp [feedback, wordPoly, bitPoly]
  | true =>
    simp [feedback, crcPoly, wordPoly, bitPoly, Finset.sum_range_succ]
    ring

/-- One step multiplies by `X`, takes the message bit in at `X^16`, and adds the generator when the feedback is 1. -/
theorem wordPoly_crcBit (c : Word) (d : Bool) :
    wordPoly (crcBit c d) =
      X * wordPoly c + bitPoly d * X ^ 16 + bitPoly (c.getLsbD 15 ^^ d) * generator := by
  have htwo : (2 : (ZMod 2)[X]) = 0 := CharTwo.two_eq_zero
  rw [crcBit_eq, wordPoly_xor, wordPoly_shiftLeft_one, wordPoly_feedback, bitPoly_xor, generator]
  linear_combination (-bitPoly d * X ^ 16) * htwo

theorem messagePoly_succ (m : ℕ → Bool) (n : ℕ) : messagePoly m (n + 1) = X * messagePoly m n + bitPoly (m n) := by
  rw [messagePoly, Finset.sum_range_succ, messagePoly, Finset.mul_sum]
  congr 1
  · refine Finset.sum_congr rfl fun j hj => ?_
    have hexp : n + 1 - 1 - j = n - 1 - j + 1 := by have := Finset.mem_range.mp hj; omega
    rw [hexp]
    ring
  · simp

/-- The register is congruent to what it held, moved up, and the message at `X^16`. -/
theorem generator_dvd_sub_crcBits (m : ℕ → Bool) (n : ℕ) (c : Word) :
    generator ∣ (wordPoly c * X ^ n + messagePoly m n * X ^ 16) - wordPoly (crcBits m n c) := by
  induction n with
  | zero => simp [messagePoly, crcBits]
  | succ n ih =>
    obtain ⟨q, hq⟩ := ih
    have hstep : crcBits m (n + 1) c = crcBit (crcBits m n c) (m n) := by
      simp only [crcBits, List.range_succ, List.foldl_append, List.foldl_cons, List.foldl_nil]
    refine ⟨X * q - bitPoly ((crcBits m n c).getLsbD 15 ^^ m n), ?_⟩
    rw [hstep, wordPoly_crcBit, messagePoly_succ]
    linear_combination X * hq

theorem generator_monic : generator.Monic := by
  unfold generator
  monicity!

theorem degree_wordPoly_lt (w : Word) : (wordPoly w).degree < generator.degree := by
  have hgenerator : generator.degree = (16 : ℕ) := by
    unfold generator
    compute_degree!
  rw [hgenerator, ← mem_degreeLT]
  refine Submodule.sum_mem _ fun i hi => ?_
  rw [bitPoly_mul, mem_degreeLT]
  split
  · rw [degree_X_pow]
    exact_mod_cast Finset.mem_range.mp hi
  · rw [degree_zero]
    exact WithBot.bot_lt_coe 16

theorem wordPoly_crcBits (m : ℕ → Bool) (n : ℕ) (c : Word) :
    wordPoly (crcBits m n c) = (wordPoly c * X ^ n + messagePoly m n * X ^ 16) %ₘ generator := by
  rw [modByMonic_eq_of_dvd_sub generator_monic (generator_dvd_sub_crcBits m n c),
    (modByMonic_eq_self_iff generator_monic).mpr (degree_wordPoly_lt _)]

/-- The bytes of a message are its bits, eight at a time. -/
theorem foldl_crcByte_eq_crcBits (B : List Byte) (c : Word) :
    B.foldl crcByte c = crcBits (messageBit B) (8 * B.length) c := by
  induction B generalizing c with
  | nil => rfl
  | cons b B ih =>
    have hfirst : (List.range 8).foldl (fun c j => crcBit c (messageBit (b :: B) j)) c = crcByte c b := rfl
    have hrest : ∀ j, messageBit (b :: B) (8 + j) = messageBit B j := by
      intro j
      rw [messageBit, messageBit, show (8 + j) / 8 = j / 8 + 1 by omega, show (8 + j) % 8 = j % 8 by omega,
        List.getD_cons_succ]
    rw [List.foldl_cons, ih, crcBits, crcBits, List.length_cons, Nat.mul_succ, Nat.add_comm, List.range_add,
      List.foldl_append, hfirst, List.foldl_map]
    simp only [hrest]

theorem wordPoly_crcStart : wordPoly crcStart = ∑ i ∈ Finset.range 16, X ^ i := by
  have hbit : ∀ i : Fin 16, crcStart.getLsbD i = true := by decide
  refine Finset.sum_congr rfl fun i hi => ?_
  rw [bitPoly_mul, if_pos (hbit ⟨i, Finset.mem_range.mp hi⟩)]

/-- Settles O38: the checksum is the register after all bits of the message, from the register of all ones. -/
theorem crc16IsThePolynomialRemainder : Obligations.Crc16IsThePolynomialRemainder := by
  unfold Obligations.Crc16IsThePolynomialRemainder
  intro B
  have h := wordPoly_crcBits (messageBit B) (8 * B.length) crcStart
  rw [← foldl_crcByte_eq_crcBits, wordPoly_crcStart] at h
  simp only [wordPoly, messagePoly, bitPoly_mul] at h
  exact h

end Sys2Proof.Machine
end
